-- ==== Sys2Proof/Word.lean ====
section
/-! DEFINITION. The word types of the core (spec/00_scope.md R7, R9, R10; spec/30_encoding.md R101). -/

namespace Sys2Proof

/-- A byte: a general register, a memory byte, a timer, an 8-bit immediate `kk`. -/
abbrev Byte := BitVec 8

/-- A 16-bit word: an instruction word, `PC`, `I`, a return address. -/
abbrev Word := BitVec 16

/-- A register field `x` or `y`: the number of one of the registers V0 to VF. -/
abbrev Reg := BitVec 4

/-- The field `n` of Dxyn: a row count, 0 to 15. -/
abbrev Rows := BitVec 4

/-- The field `nnn`: a 12-bit address. -/
abbrev Addr := BitVec 12

/-- VF, the register that is also the flag (R21). -/
abbrev VF : Reg := 0xF#4

end Sys2Proof
end

