-- ==== Sys2Proof/Syntax.lean ====
section
/-! DEFINITION. The 34 instructions, in the order of spec/30_encoding.md R110, one constructor a row.
Each field has exactly the width R101 gives it. -/

namespace Sys2Proof

/-- An instruction of the core (R110). -/
inductive Instr where
  /-- 00E0, R130. -/
  | cls
  /-- 00EE, R131. -/
  | ret
  /-- 1nnn, R141. -/
  | jp (nnn : Addr)
  /-- 2nnn, R142. -/
  | call (nnn : Addr)
  /-- 3xkk, R143. -/
  | seImm (x : Reg) (kk : Byte)
  /-- 4xkk, R144. -/
  | sneImm (x : Reg) (kk : Byte)
  /-- 5xy0, R145. -/
  | seReg (x y : Reg)
  /-- 6xkk, R160. -/
  | ldImm (x : Reg) (kk : Byte)
  /-- 7xkk, R161. -/
  | addImm (x : Reg) (kk : Byte)
  /-- 8xy0, R174. -/
  | ldReg (x y : Reg)
  /-- 8xy1, R175. -/
  | orReg (x y : Reg)
  /-- 8xy2, R176. -/
  | andReg (x y : Reg)
  /-- 8xy3, R177. -/
  | xorReg (x y : Reg)
  /-- 8xy4, R178. -/
  | addReg (x y : Reg)
  /-- 8xy5, R179. -/
  | subReg (x y : Reg)
  /-- 8xy6, R181; `y` is encoded and not read. -/
  | shr (x y : Reg)
  /-- 8xy7, R182. -/
  | subn (x y : Reg)
  /-- 8xyE, R183; `y` is encoded and not read. -/
  | shl (x y : Reg)
  /-- 9xy0, R200. -/
  | sneReg (x y : Reg)
  /-- Annn, R201. -/
  | ldI (nnn : Addr)
  /-- Bnnn, R202. -/
  | jpV0 (nnn : Addr)
  /-- Cxkk, R210. -/
  | rnd (x : Reg) (kk : Byte)
  /-- Dxyn, R220. -/
  | drw (x y : Reg) (n : Rows)
  /-- Ex9E, R241. -/
  | skp (x : Reg)
  /-- ExA1, R242. -/
  | sknp (x : Reg)
  /-- Fx07, R250. -/
  | readDT (x : Reg)
  /-- Fx15, R251. -/
  | setDT (x : Reg)
  /-- Fx18, R252. -/
  | setST (x : Reg)
  /-- Fx1E, R254. -/
  | addI (x : Reg)
  /-- Fx0A, R256. -/
  | waitKey (x : Reg)
  /-- Fx29, R258. -/
  | ldFont (x : Reg)
  /-- Fx33, R262. -/
  | storeBcd (x : Reg)
  /-- Fx55, R264. -/
  | storeRegs (x : Reg)
  /-- Fx65, R266. -/
  | loadRegs (x : Reg)
  deriving DecidableEq, Repr

end Sys2Proof
end

