-- ==== Sys2Proof/WellFormed.lean ====
section
/-! DEFINITION. Which 16-bit words are instructions, written from the per-family listing of illegal
words in spec/30_encoding.md R111 (a second account of the instruction set, independent of the pattern
rows of R110 that Decode.lean follows), and the field ranges of R101. -/

namespace Sys2Proof

/-- R111, family by family: the words that are not illegal. -/
def legalWord (op : Word) : Bool :=
  let w := op.toNat
  let family := w / 0x1000
  let low := w % 0x100
  let n := w % 0x10
  if family = 0x0 then w == 0x00E0 || w == 0x00EE
  else if family = 0x5 ∨ family = 0x9 then n == 0
  else if family = 0x8 then !([0x8, 0x9, 0xA, 0xB, 0xC, 0xD, 0xF].contains n)
  else if family = 0xE then [0x9E, 0xA1].contains low
  else if family = 0xF then [0x07, 0x0A, 0x15, 0x18, 0x1E, 0x29, 0x33, 0x55, 0x65].contains low
  else true

/-- The field ranges of R101: registers and row counts below 16, `kk` below 256, `nnn` below 4096. The
field types of Syntax.lean already have these widths, so no value of `Instr` is ill-formed; a WORD can
be, and `legalWord` says which. -/
def Instr.wellFormed : Instr → Bool
  | .cls | .ret => true
  | .jp nnn | .call nnn | .ldI nnn | .jpV0 nnn => decide (nnn.toNat < 4096)
  | .seImm x kk | .sneImm x kk | .ldImm x kk | .addImm x kk | .rnd x kk =>
    decide (x.toNat < 16) && decide (kk.toNat < 256)
  | .seReg x y | .ldReg x y | .orReg x y | .andReg x y | .xorReg x y | .addReg x y | .subReg x y
  | .shr x y | .subn x y | .shl x y | .sneReg x y => decide (x.toNat < 16) && decide (y.toNat < 16)
  | .drw x y n => decide (x.toNat < 16) && decide (y.toNat < 16) && decide (n.toNat < 16)
  | .skp x | .sknp x | .readDT x | .setDT x | .setST x | .addI x | .waitKey x | .ldFont x
  | .storeBcd x | .storeRegs x | .loadRegs x => decide (x.toNat < 16)

end Sys2Proof
end

