-- ==== Sys2Proof/Decode.lean ====
section
/-! DEFINITION. The decoder (spec/30_encoding.md R100 to R113) and, after it, the encoder. -/

namespace Sys2Proof

/-- Field `x`, bits 11..8 (R101). -/
def fieldX (op : Word) : Reg := op.extractLsb' 8 4

/-- Field `y`, bits 7..4 (R101). -/
def fieldY (op : Word) : Reg := op.extractLsb' 4 4

/-- Field `n`, bits 3..0 (R101). -/
def fieldN (op : Word) : Rows := op.extractLsb' 0 4

/-- Field `kk`, bits 7..0 (R101). -/
def fieldKK (op : Word) : Byte := op.extractLsb' 0 8

/-- Field `nnn`, bits 11..0 (R101). -/
def fieldNNN (op : Word) : Addr := op.extractLsb' 0 12

/-- A row of the opcode map (R110): a word is the row's instruction when `word AND mask = bits`. -/
structure Row where
  pattern : String
  mask    : Word
  bits    : Word
  build   : Word → Instr

/-- The test of R104: `(op & R.mask) == R.match`. -/
def Row.accepts (r : Row) (op : Word) : Bool := op &&& r.mask == r.bits

/-- Rows 1 to 9 of R110. -/
def rowsFamily0to7 : List Row := [
  ⟨"00E0", 0xFFFF#16, 0x00E0#16, fun _ => .cls⟩,
  ⟨"00EE", 0xFFFF#16, 0x00EE#16, fun _ => .ret⟩,
  ⟨"1nnn", 0xF000#16, 0x1000#16, fun op => .jp (fieldNNN op)⟩,
  ⟨"2nnn", 0xF000#16, 0x2000#16, fun op => .call (fieldNNN op)⟩,
  ⟨"3xkk", 0xF000#16, 0x3000#16, fun op => .seImm (fieldX op) (fieldKK op)⟩,
  ⟨"4xkk", 0xF000#16, 0x4000#16, fun op => .sneImm (fieldX op) (fieldKK op)⟩,
  ⟨"5xy0", 0xF00F#16, 0x5000#16, fun op => .seReg (fieldX op) (fieldY op)⟩,
  ⟨"6xkk", 0xF000#16, 0x6000#16, fun op => .ldImm (fieldX op) (fieldKK op)⟩,
  ⟨"7xkk", 0xF000#16, 0x7000#16, fun op => .addImm (fieldX op) (fieldKK op)⟩]

/-- Rows 10 to 18 of R110. -/
def rowsFamily8 : List Row := [
  ⟨"8xy0", 0xF00F#16, 0x8000#16, fun op => .ldReg (fieldX op) (fieldY op)⟩,
  ⟨"8xy1", 0xF00F#16, 0x8001#16, fun op => .orReg (fieldX op) (fieldY op)⟩,
  ⟨"8xy2", 0xF00F#16, 0x8002#16, fun op => .andReg (fieldX op) (fieldY op)⟩,
  ⟨"8xy3", 0xF00F#16, 0x8003#16, fun op => .xorReg (fieldX op) (fieldY op)⟩,
  ⟨"8xy4", 0xF00F#16, 0x8004#16, fun op => .addReg (fieldX op) (fieldY op)⟩,
  ⟨"8xy5", 0xF00F#16, 0x8005#16, fun op => .subReg (fieldX op) (fieldY op)⟩,
  ⟨"8xy6", 0xF00F#16, 0x8006#16, fun op => .shr (fieldX op) (fieldY op)⟩,
  ⟨"8xy7", 0xF00F#16, 0x8007#16, fun op => .subn (fieldX op) (fieldY op)⟩,
  ⟨"8xyE", 0xF00F#16, 0x800E#16, fun op => .shl (fieldX op) (fieldY op)⟩]

/-- Rows 19 to 25 of R110. -/
def rowsFamily9toE : List Row := [
  ⟨"9xy0", 0xF00F#16, 0x9000#16, fun op => .sneReg (fieldX op) (fieldY op)⟩,
  ⟨"Annn", 0xF000#16, 0xA000#16, fun op => .ldI (fieldNNN op)⟩,
  ⟨"Bnnn", 0xF000#16, 0xB000#16, fun op => .jpV0 (fieldNNN op)⟩,
  ⟨"Cxkk", 0xF000#16, 0xC000#16, fun op => .rnd (fieldX op) (fieldKK op)⟩,
  ⟨"Dxyn", 0xF000#16, 0xD000#16, fun op => .drw (fieldX op) (fieldY op) (fieldN op)⟩,
  ⟨"Ex9E", 0xF0FF#16, 0xE09E#16, fun op => .skp (fieldX op)⟩,
  ⟨"ExA1", 0xF0FF#16, 0xE0A1#16, fun op => .sknp (fieldX op)⟩]

/-- Rows 26 to 34 of R110. -/
def rowsFamilyF : List Row := [
  ⟨"Fx07", 0xF0FF#16, 0xF007#16, fun op => .readDT (fieldX op)⟩,
  ⟨"Fx15", 0xF0FF#16, 0xF015#16, fun op => .setDT (fieldX op)⟩,
  ⟨"Fx18", 0xF0FF#16, 0xF018#16, fun op => .setST (fieldX op)⟩,
  ⟨"Fx1E", 0xF0FF#16, 0xF01E#16, fun op => .addI (fieldX op)⟩,
  ⟨"Fx0A", 0xF0FF#16, 0xF00A#16, fun op => .waitKey (fieldX op)⟩,
  ⟨"Fx29", 0xF0FF#16, 0xF029#16, fun op => .ldFont (fieldX op)⟩,
  ⟨"Fx33", 0xF0FF#16, 0xF033#16, fun op => .storeBcd (fieldX op)⟩,
  ⟨"Fx55", 0xF0FF#16, 0xF055#16, fun op => .storeRegs (fieldX op)⟩,
  ⟨"Fx65", 0xF0FF#16, 0xF065#16, fun op => .loadRegs (fieldX op)⟩]

/-- The opcode map of R110, all 34 rows. -/
def rows : List Row := rowsFamily0to7 ++ (rowsFamily8 ++ (rowsFamily9toE ++ rowsFamilyF))

/-- Why bytes or a word are no instruction. -/
inductive DecodeFailure where
  /-- Fewer than two bytes: not a word (every instruction is 2 bytes, R94). -/
  | truncated
  /-- The word matches no row of R110 (R104, R111). -/
  | illegal (op : Word)
  deriving DecidableEq, Repr

/-- DECODE (R104): the row that accepts the word, or a rejection that names the word. -/
def decode (op : Word) : Except DecodeFailure Instr :=
  match rows.find? (fun r => r.accepts op) with
  | some r => .ok (r.build op)
  | none => .error (.illegal op)

/-- The word of two consecutive bytes, high byte at the lower address (R66, R91). -/
def wordOfBytes (high low : Byte) : Word := high ++ low

/-- The two bytes of a word as memory holds them, in address order (R66). -/
def bytesOfWord (op : Word) : List Byte := [op.extractLsb' 8 8, op.extractLsb' 0 8]

/-- Decode the instruction at the head of a byte sequence: its first two bytes (R94). -/
def decodeBytes : List Byte → Except DecodeFailure Instr
  | high :: low :: _ => decode (wordOfBytes high low)
  | _ => .error .truncated

/-- The host's entry: the instruction whose bits, numbered as the opcode table numbers them, are `w`;
bits from `nbits` up are 0. -/
def decodeTableWord (nbits w : Nat) : Option Instr :=
  match decodeBytes (bytesOfWord (BitVec.ofNat 16 (w % 2 ^ nbits))) with
  | .ok i => some i
  | .error _ => none

/-- Family, `x`, `kk` (R100). -/
def packXKK (family : BitVec 4) (x : Reg) (kk : Byte) : Word := family ++ x ++ kk

/-- Family, `x`, `y`, `n` (R100). -/
def packXYN (family : BitVec 4) (x y : Reg) (n : BitVec 4) : Word := family ++ x ++ y ++ n

/-- Family, `nnn` (R100). -/
def packNNN (family : BitVec 4) (nnn : Addr) : Word := family ++ nnn

/-- The word of an instruction (R110, R103). -/
def encode : Instr → Word
  | .cls => 0x00E0#16
  | .ret => 0x00EE#16
  | .jp nnn => packNNN 0x1#4 nnn
  | .call nnn => packNNN 0x2#4 nnn
  | .seImm x kk => packXKK 0x3#4 x kk
  | .sneImm x kk => packXKK 0x4#4 x kk
  | .seReg x y => packXYN 0x5#4 x y 0x0#4
  | .ldImm x kk => packXKK 0x6#4 x kk
  | .addImm x kk => packXKK 0x7#4 x kk
  | .ldReg x y => packXYN 0x8#4 x y 0x0#4
  | .orReg x y => packXYN 0x8#4 x y 0x1#4
  | .andReg x y => packXYN 0x8#4 x y 0x2#4
  | .xorReg x y => packXYN 0x8#4 x y 0x3#4
  | .addReg x y => packXYN 0x8#4 x y 0x4#4
  | .subReg x y => packXYN 0x8#4 x y 0x5#4
  | .shr x y => packXYN 0x8#4 x y 0x6#4
  | .subn x y => packXYN 0x8#4 x y 0x7#4
  | .shl x y => packXYN 0x8#4 x y 0xE#4
  | .sneReg x y => packXYN 0x9#4 x y 0x0#4
  | .ldI nnn => packNNN 0xA#4 nnn
  | .jpV0 nnn => packNNN 0xB#4 nnn
  | .rnd x kk => packXKK 0xC#4 x kk
  | .drw x y n => packXYN 0xD#4 x y n
  | .skp x => packXKK 0xE#4 x 0x9E#8
  | .sknp x => packXKK 0xE#4 x 0xA1#8
  | .readDT x => packXKK 0xF#4 x 0x07#8
  | .setDT x => packXKK 0xF#4 x 0x15#8
  | .setST x => packXKK 0xF#4 x 0x18#8
  | .addI x => packXKK 0xF#4 x 0x1E#8
  | .waitKey x => packXKK 0xF#4 x 0x0A#8
  | .ldFont x => packXKK 0xF#4 x 0x29#8
  | .storeBcd x => packXKK 0xF#4 x 0x33#8
  | .storeRegs x => packXKK 0xF#4 x 0x55#8
  | .loadRegs x => packXKK 0xF#4 x 0x65#8

end Sys2Proof
end

