-- ==== Sys2Proof/Config.lean ====
section
/-! DEFINITION. What an implementation fixes (spec/00_scope.md R8) and the one free value of the model. -/

namespace Sys2Proof.Config

/-- `ALIAS_POLICY` (R8, R172): what the forms whose result depends on the order of the flag write do. -/
inductive AliasPolicy where
  /-- Statement order as written (R171). -/
  | sequential
  /-- Raise AliasRefused before any write (R172). -/
  | refuse
  deriving DecidableEq, Repr

/-- The parameters of R8. Every statement holds for every value of them; the defaults (R8) stand in
`Sys2Proof.Machine.defaultParams`. -/
structure Params where
  /-- `STACK_DEPTH`: `none` is `unbounded` (R30, R31). -/
  stackDepth  : Option Nat
  /-- `ALIAS_POLICY` (R172). -/
  aliasPolicy : AliasPolicy
  /-- The bytes of glyphs 1 to F of `FONT_TABLE` (R41); glyph 0 is fixed and is no parameter. -/
  glyphs      : Vector Byte 75
  deriving DecidableEq, Repr

/-- The random byte of the `k`-th execution of Cxkk (R210, spec/92_eei_decisions.md D14). FREE: it has
no body, so nothing can be proved of a draw and no two draws are related. Log entry 2. -/
opaque randomByte : Nat → Byte

end Sys2Proof.Config
end

