-- ==== Sys2Proof/Machine/Constants.lean ====
section
/-! DEFINITION. The sizes of spec/00_scope.md R7, the font of spec/10_state.md R41, the defaults of R8 and
the contents of memory after RESET (spec/70_reset_and_hazards.md R350, R351). -/

namespace Sys2Proof.Machine

/-- `MEM_SIZE` (R7): addresses 0x000 to 0xFFF. -/
def memSize : Nat := 0x1000

/-- `PROGRAM_BASE` (R7), the reset `PC`. -/
def programBase : Nat := 0x200

/-- `PROGRAM_MAX` (R7): the most bytes LOAD takes. -/
def programMax : Nat := 3584

/-- `FONT_BASE` (R7, R41). -/
def fontBase : Nat := 0x050

/-- The font set's length (R7, R41): 16 glyphs of 5 bytes. -/
def fontSize : Nat := 80

/-- `FX1E_THRESHOLD` (R7, R255): decimal 1000. -/
def indexThreshold : Nat := 1000

/-- Glyph 0 (R41), the only one the source gives. -/
def glyphZero : List Byte := [0xF0#8, 0x90#8, 0x90#8, 0x90#8, 0xF0#8]

/-- The default bytes of glyphs 1 to F (R41). PRESUMED: supplied by the spec from general knowledge, not
by its source. Log entry 4. -/
def defaultGlyphs : Vector Byte 75 := #v[
  0x20#8, 0x60#8, 0x20#8, 0x20#8, 0x70#8,
  0xF0#8, 0x10#8, 0xF0#8, 0x80#8, 0xF0#8,
  0xF0#8, 0x10#8, 0xF0#8, 0x10#8, 0xF0#8,
  0x90#8, 0x90#8, 0xF0#8, 0x10#8, 0x10#8,
  0xF0#8, 0x80#8, 0xF0#8, 0x10#8, 0xF0#8,
  0xF0#8, 0x80#8, 0xF0#8, 0x90#8, 0xF0#8,
  0xF0#8, 0x10#8, 0x20#8, 0x40#8, 0x40#8,
  0xF0#8, 0x90#8, 0xF0#8, 0x90#8, 0xF0#8,
  0xF0#8, 0x90#8, 0xF0#8, 0x10#8, 0xF0#8,
  0xF0#8, 0x90#8, 0xF0#8, 0x90#8, 0x90#8,
  0xE0#8, 0x90#8, 0xE0#8, 0x90#8, 0xE0#8,
  0xF0#8, 0x80#8, 0x80#8, 0x80#8, 0xF0#8,
  0xE0#8, 0x90#8, 0x90#8, 0x90#8, 0xE0#8,
  0xF0#8, 0x80#8, 0xF0#8, 0x80#8, 0xF0#8,
  0xF0#8, 0x80#8, 0xF0#8, 0x80#8, 0x80#8]

/-- The defaults of R8. -/
def defaultParams : Config.Params where
  stackDepth  := none
  aliasPolicy := .sequential
  glyphs      := defaultGlyphs

/-- `FONT_TABLE[k]` (R41): glyph 0 in bytes 0 to 4, then glyphs 1 to F. -/
def fontByte (p : Config.Params) (k : Nat) : Byte :=
  if k < 5 then glyphZero.getD k 0#8 else p.glyphs.toList.getD (k - 5) 0#8

/-- The byte at an address right after RESET (R350, R351, R68): the font set at 0x050 to 0x09F, 0
elsewhere. This is what an address that memory does not list reads as. Log entry 6. -/
def initialByte (p : Config.Params) (a : Nat) : Byte :=
  if fontBase ≤ a ∧ a < fontBase + fontSize then fontByte p (a - fontBase) else 0#8

end Sys2Proof.Machine
end

