-- ==== Sys2Proof/Machine/State.lean ====
section
/-! DEFINITION. All the state of the core (spec/10_state.md, summary R42), and its value after RESET. -/

namespace Sys2Proof.Machine

/-- The causes of a fault (spec/60_exceptions.md R301), a closed enumeration. An instruction or the
fetch unit that raises one TAKES it: the STEP answers a next state whose only change is the fault record
(R305, R306; `takeFault`), so no step answers `Outcome.fault`. Stopping there is safe: the core does stop
(R306), and nothing can be proved of a run beyond it. Log entry 1. -/
inductive Fault where
  /-- Code 1. Raised by DECODE on a word that matches no row of R110. Safe. -/
  | decodeError
  /-- Code 2. Raised by 00EE on an empty stack. Safe. -/
  | stackUnderflow
  /-- Code 3. Raised by FETCH when `PC` > 0xFFE (R91). Safe: the source says nothing of it. -/
  | fetchOutOfRange
  /-- Code 4. Raised by Dxyn, Fx33, Fx55, Fx65 when an address they access exceeds 0xFFF (R64). Safe: the
  source says nothing of it. -/
  | dataOutOfRange
  /-- Code 5. Raised by Ex9E, ExA1 when `V[x]` > 15 (R240). Safe: the source says nothing of it. -/
  | keyIndexOutOfRange
  /-- Code 6. Raised by Fx1E when `I + V[x]` > 0xFFFF (R254). Safe: the source says nothing of it. -/
  | indexOverflow
  /-- Code 7. Raised by 2nnn when `STACK_DEPTH` is a number and the stack is full (R31). Safe. -/
  | stackOverflow
  /-- Code 8. Raised by 8xy4 to 8xyE under `ALIAS_POLICY` = `refuse` (R172). Safe. -/
  | aliasRefused
  deriving DecidableEq, Repr

/-- Why a step has no next state. -/
inductive Refusal where
  /-- Answered only by an arm of `exec` whose instruction has no meaning yet; no arm does. Safe. -/
  | notModelled (mnemonic : String)
  /-- Answered by `step` when the core is halted: "the request is refused and nothing changes"
  (spec/60_exceptions.md R334, R307). Safe. -/
  | halted
  deriving DecidableEq, Repr

/-- The fault record `{code, pc, opcode, info}` (R38, R305). -/
structure FaultRecord where
  /-- `code`: the cause (R301). -/
  cause  : Fault
  /-- The address of the faulting instruction. -/
  pc     : Word
  /-- The fetched word; `none` for FetchOutOfRange. -/
  opcode : Option Word
  /-- The `info` of R301; `none` where R301 records none. -/
  info   : Option Nat
  deriving DecidableEq, Repr

/-- The display (R34): 32 rows of 64 pixels, row 0 at the top, column 0 at the left. -/
abbrev Grid := Vector (Vector Bool 64) 32

/-- Memory as the cells that differ from what RESET leaves (`initialByte`), addresses strictly rising. -/
abbrev Memory := List Host.Cell

/-- The state of the core (R42), and two fields of the model's own. -/
structure State where
  /-- `V[0]` to `V[0xF]` (R20); `V[0xF]` is VF (R21). -/
  v        : Vector Byte 16
  /-- `PC` (R26). -/
  pc       : Word
  /-- `I` (R29). -/
  index    : Word
  /-- `S` (R30), the top of the stack FIRST. -/
  stack    : List Word
  /-- `M` (R40): the cells that differ from the reset contents. -/
  mem      : Memory
  /-- `Disp` (R34). -/
  disp     : Grid
  /-- `Keys` (R35): true means pressed. -/
  keys     : Vector Bool 16
  /-- `DT` (R36). -/
  dt       : Byte
  /-- `ST` (R36). -/
  st       : Byte
  /-- `drawFlag` (R37). -/
  drawFlag : Bool
  /-- `Fault` (R38): while it is not `none` the core is halted (R306). -/
  fault    : Option FaultRecord
  /-- MODEL'S OWN: how many random bytes have been drawn, the argument of the free value
  `Config.randomByte` (R210). Log entry 2. -/
  draws    : Nat
  /-- MODEL'S OWN: the parameters of R8, which nothing writes. Log entry 3. -/
  params   : Config.Params
  deriving DecidableEq, Repr

/-- The state after RESET (R350, R351, R353), with the default parameters of R8. Memory lists nothing:
every address reads as RESET leaves it. -/
def State.reset : State where
  v        := Vector.replicate 16 0#8
  pc       := BitVec.ofNat 16 programBase
  index    := 0#16
  stack    := []
  mem      := []
  disp     := Vector.replicate 32 (Vector.replicate 64 false)
  keys     := Vector.replicate 16 false
  dt       := 0#8
  st       := 0#8
  drawFlag := false
  fault    := none
  draws    := 0
  params   := defaultParams

end Sys2Proof.Machine
end

