-- ==== Sys2Proof/Machine/Ops.lean ====
section
/-! DEFINITION. The named operations over registers, memory, stack and display, and taking a fault. -/

namespace Sys2Proof.Machine

/-- A raised fault on its way to the record: the cause and the `info` of R301. -/
structure Trap where
  cause : Fault
  info  : Option Nat
  deriving DecidableEq, Repr

/-- The numeric code of a cause (R301). -/
def Fault.code : Fault → Nat
  | .decodeError => 1
  | .stackUnderflow => 2
  | .fetchOutOfRange => 3
  | .dataOutOfRange => 4
  | .keyIndexOutOfRange => 5
  | .indexOverflow => 6
  | .stackOverflow => 7
  | .aliasRefused => 8

/-! ### General registers -/

/-- `V[x]` (R11, R20). -/
def State.reg (s : State) (x : Reg) : Byte := s.v[x.toNat]'x.isLt

/-- `V[x] <- b` (R11). A write to `V[0xF]` is a write to the flag and the other way round (R21). -/
def State.setReg (s : State) (x : Reg) (b : Byte) : State := { s with v := s.v.set x.toNat b x.isLt }

/-- `V[x], V[x+1], ... <- bytes`, ascending, for a first register number given as a natural number (R266). -/
def State.setRegs (s : State) (k : Nat) : List Byte → State
  | [] => s
  | b :: bs => (s.setReg (BitVec.ofNat 4 k) b).setRegs (k + 1) bs

/-- `V[0]` to `V[x]`, ascending (R264). -/
def State.regsUpTo (s : State) (x : Reg) : List Byte :=
  (List.range (x.toNat + 1)).map fun k => s.reg (BitVec.ofNat 4 k)

/-! ### Memory -/

/-- The byte at an address: a listed cell, else the reset contents. -/
def Memory.read (initial : Nat → Byte) : Memory → Nat → Byte
  | [], a => initial a
  | (k, b) :: m, a => if k = a then b else Memory.read initial m a

/-- The memory without a cell for `a`. -/
def Memory.drop (m : Memory) (a : Nat) : Memory := m.filter fun c => c.1 != a

/-- Put a cell into its place in a memory that has none for its address. -/
def Memory.place (a : Nat) (b : Byte) : Memory → Memory
  | [] => [(a, b)]
  | (k, c) :: m => if a < k then (a, b) :: (k, c) :: m else (k, c) :: Memory.place a b m

/-- Write a byte, keeping the canonical form: the reset value is not listed. -/
def Memory.write (initial : Nat → Byte) (m : Memory) (a : Nat) (b : Byte) : Memory :=
  if b = initial a then m.drop a else Memory.place a b (m.drop a)

/-- The canonical form from an address on: addresses strictly rising and inside the address space, no
cell equal to what its address reads as unlisted. -/
def Memory.wfFrom (initial : Nat → Byte) : Nat → Memory → Bool
  | _, [] => true
  | low, (k, b) :: m =>
    decide (low ≤ k) && decide (k < memSize) && b != initial k && Memory.wfFrom initial (k + 1) m

/-- The canonical form of a memory. -/
def Memory.wf (initial : Nat → Byte) (m : Memory) : Bool := Memory.wfFrom initial 0 m

/-- `M[a]` (R11, R40). -/
def State.byteAt (s : State) (a : Nat) : Byte := Memory.read (initialByte s.params) s.mem a

/-- `M[a] <- b`. Outside the address space there is no byte to write (R60): nothing is written; every
access checks its range first (R64), so no instruction gets there. Log entry 10. -/
def State.setByte (s : State) (a : Nat) (b : Byte) : State :=
  if a < memSize then { s with mem := Memory.write (initialByte s.params) s.mem a b } else s

/-- `M[a], M[a+1], ... <- bytes`, ascending. -/
def State.setBytes (s : State) (a : Nat) : List Byte → State
  | [] => s
  | b :: bs => (s.setByte a b).setBytes (a + 1) bs

/-- `M[a], M[a+1], ..., M[a+n-1]`. -/
def State.bytesAt (s : State) (a n : Nat) : List Byte := (List.range n).map fun r => s.byteAt (a + r)

/-- The lowest address beyond 0xFFF among `a`, `a + 1`, ..., `a + n - 1`, if there is one. -/
def firstOutside (a n : Nat) : Option Nat :=
  ((List.range n).map (a + ·)).find? fun b => decide (0xFFF < b)

/-- The range check of an instruction that accesses the `n` bytes from `a` on (R64): it comes before
every write, and reports the lowest offending address (R301, R303). -/
def checkRange (a n : Nat) : Except Trap Unit :=
  match firstOutside a n with
  | some bad => .error ⟨.dataOutOfRange, some bad⟩
  | none => .ok ()

/-- Read the `n` bytes from `a` on, after their range check (R62, R64). -/
def loadBlock (a n : Nat) (s : State) : Except Trap (List Byte) :=
  (checkRange a n).map fun _ => s.bytesAt a n

/-- Write bytes from `a` on, ascending, after their range check (R63, R64). -/
def storeBlock (a : Nat) (bytes : List Byte) (s : State) : Except Trap State :=
  (checkRange a bytes.length).map fun _ => s.setBytes a bytes

/-- `MemRead(a, 1)` (R62). -/
def memRead (a : Nat) (s : State) : Except Trap Byte := (checkRange a 1).map fun _ => s.byteAt a

/-- `MemWrite(a, 1, b)` (R63). -/
def memWrite (a : Nat) (b : Byte) (s : State) : Except Trap State := (checkRange a 1).map fun _ => s.setByte a b

/-! ### Stack -/

/-- `STACK_DEPTH` is a number and `len(S) = STACK_DEPTH` (R31). -/
def State.stackFull (s : State) : Bool :=
  match s.params.stackDepth with
  | some depth => s.stack.length == depth
  | none => false

/-- `push(v)` (R31). -/
def push (a : Word) (s : State) : Except Trap State :=
  if s.stackFull then .error ⟨.stackOverflow, none⟩ else .ok { s with stack := a :: s.stack }

/-- `pop()` (R32): the top entry and the state without it. -/
def pop (s : State) : Except Trap (Word × State) :=
  match s.stack with
  | [] => .error ⟨.stackUnderflow, none⟩
  | a :: rest => .ok (a, { s with stack := rest })

/-! ### Program counter -/

/-- The address after this instruction: FETCH "advances PC by 2" (R26, R91). It is also what a taken skip
does once more (R140). -/
def State.advance (s : State) : State := { s with pc := s.pc + 2#16 }

/-- `PC <- a`. -/
def State.jump (s : State) (a : Word) : State := { s with pc := a }

/-! ### Display -/

/-- `Disp[c, r]` (R34); no pixel off the grid is set. -/
def Grid.pixel (g : Grid) (c r : Nat) : Bool :=
  if h : c < 64 ∧ r < 32 then (g[r]'h.2)[c]'h.1 else false

/-- `Disp[c, r] <- Disp[c, r] XOR 1` (R220); off the grid there is no pixel. -/
def Grid.flip (g : Grid) (c r : Nat) : Grid :=
  if h : c < 64 ∧ r < 32 then g.set r ((g[r]'h.2).set c (!((g[r]'h.2)[c]'h.1)) h.1) h.2 else g

/-- Every pixel false (R130, R350). -/
def Grid.blank : Grid := Vector.replicate 32 (Vector.replicate 64 false)

/-! ### Taking a fault -/

/-- Fault entry (R305, R306), from the state BEFORE the STEP: the record is written and nothing else
changes, so `PC` is still the faulting instruction's address. There is no return from a fault (R308):
only the host's RESET clears the record. -/
def takeFault (opcode : Option Word) (t : Trap) (s : State) : State :=
  { s with fault := some { cause := t.cause, pc := s.pc, opcode := opcode, info := t.info } }

/-- Execute an instruction from the state before its STEP: its pseudocode runs on the state after FETCH's
advance, and its result stands unless it raises, when everything the STEP did is discarded and the fault
is taken (R90, R306). The opcode recorded is the instruction's word, the one it was fetched from (R305). -/
def commit (i : Instr) (s : State) (body : State → Except Trap State) : Host.Outcome State Fault Refusal :=
  match body s.advance with
  | .ok t => .next t
  | .error t => .next (takeFault (some (encode i)) t s)

/-- The same for pseudocode that raises nothing. -/
def commitPure (s : State) (body : State → State) : Host.Outcome State Fault Refusal :=
  .next (body s.advance)

end Sys2Proof.Machine
end

