-- ==== Sys2Proof/Machine/Operands.lean ====
section
/-! DEFINITION. The operand forms (spec/30_encoding.md R102, R103): what an instruction's fields stand for
beyond a register `V[x]`, `V[y]` (`State.reg`) and an immediate `kk` used as it is. -/

namespace Sys2Proof.Machine

/-- `zext_16(nnn)`: a 12-bit address as a 16-bit one (R102). -/
def addressOf (nnn : Addr) : Word := nnn.setWidth 16

/-- The target of Bnnn, `zext_16(nnn) + V[0]`, not masked (R202). -/
def indexedTarget (nnn : Addr) (s : State) : Word := addressOf nnn + (s.reg 0x0#4).setWidth 16

/-- The address of the first byte that Dxyn, Fx33, Fx55 and Fx65 access: `I` (R61). -/
def State.base (s : State) : Nat := s.index.toNat

/-- How many registers Fx55 and Fx65 transfer: `x + 1` (R264, R266). -/
def blockLength (x : Reg) : Nat := x.toNat + 1

/-- The key a register numbers: `V[x]` as an index of `Keys`, or KeyIndexOutOfRange (R240). -/
def keyOperand (x : Reg) (s : State) : Except Trap (Fin 16) :=
  if h : (s.reg x).toNat < 16 then .ok ⟨(s.reg x).toNat, h⟩
  else .error ⟨.keyIndexOutOfRange, some (s.reg x).toNat⟩

/-- The lowest pressed key, scanning 0 to F (R256). -/
def lowestKey (keys : Vector Bool 16) : Option (Fin 16) :=
  (List.finRange 16).find? fun k => keys[k.val]'k.isLt

/-- The address of the font glyph that a byte selects: low nibble times 5 plus the font base (R258). -/
def glyphAddress (b : Byte) : Word := BitVec.ofNat 16 ((b.toNat % 16) * 5 + fontBase)

/-- The hundreds, tens and ones of a byte (R260). -/
def decimalDigits (b : Byte) : List Byte :=
  [BitVec.ofNat 8 (b.toNat / 100), BitVec.ofNat 8 (b.toNat / 10 % 10), BitVec.ofNat 8 (b.toNat % 10)]

/-- The column of a sprite's origin: `V[x] mod 64` (R220, R221). -/
def originColumn (b : Byte) : Nat := b.toNat % 64

/-- The row of a sprite's origin: `V[y]`, not reduced (R221). -/
def originRow (b : Byte) : Nat := b.toNat

/-- The bits of a sprite row, most significant (leftmost pixel) first (R220). -/
def spriteBits (b : Byte) : List Bool := (List.range 8).map fun j => b.getLsbD (7 - j)

end Sys2Proof.Machine
end

