-- ==== Sys2Proof/Machine/Family0.lean ====
section
/-! DEFINITION. Family 0, clear screen and return (spec/40_family0_screen_return.md). -/

namespace Sys2Proof.Machine

/-- CLS (R130): every pixel 0, drawFlag 1. -/
def execCls (s : State) : Host.Outcome State Fault Refusal :=
  commitPure s fun s0 => { s0 with disp := Grid.blank, drawFlag := true }

/-- RET (R131): `PC <- pop()`, StackUnderflow on an empty stack. -/
def execRet (s : State) : Host.Outcome State Fault Refusal :=
  commit .ret s fun s0 => (pop s0).map fun popped => popped.2.jump popped.1

end Sys2Proof.Machine
end

