-- ==== Sys2Proof/Machine/Family1to5.lean ====
section
/-! DEFINITION. Families 1 to 5, jump, call and skips (spec/41_family1to5_jump_call_skip.md). -/

namespace Sys2Proof.Machine

/-- The skip mechanism (R140), shared by the six skips: a condition that holds advances `PC` once more; the
skipped word is not looked at. -/
def skipIf (cond : Bool) (s : State) : State := if cond then s.advance else s

/-- JP nnn (R141). -/
def execJp (nnn : Addr) (s : State) : Host.Outcome State Fault Refusal :=
  commitPure s fun s0 => s0.jump (addressOf nnn)

/-- CALL nnn (R142): the return address is the advanced `PC`. -/
def execCall (nnn : Addr) (s : State) : Host.Outcome State Fault Refusal :=
  commit (.call nnn) s fun s0 => (push s0.pc s0).map fun s1 => s1.jump (addressOf nnn)

/-- SE Vx, kk (R143). -/
def execSeImm (x : Reg) (kk : Byte) (s : State) : Host.Outcome State Fault Refusal :=
  commitPure s fun s0 => skipIf (s0.reg x == kk) s0

/-- SNE Vx, kk (R144). -/
def execSneImm (x : Reg) (kk : Byte) (s : State) : Host.Outcome State Fault Refusal :=
  commitPure s fun s0 => skipIf (s0.reg x != kk) s0

/-- SE Vx, Vy (R145). -/
def execSeReg (x y : Reg) (s : State) : Host.Outcome State Fault Refusal :=
  commitPure s fun s0 => skipIf (s0.reg x == s0.reg y) s0

end Sys2Proof.Machine
end

