-- ==== Sys2Proof/Machine/Flags.lean ====
section
/-! DEFINITION. Every value VF receives as a flag (spec/10_state.md R24) and the results beside them
(spec/43_family8_alu.md R170 to R183). -/

namespace Sys2Proof.Machine

/-- The exact sum of 8xy4 (R170, R178): 0 to 510. -/
def addSum (a b : Byte) : Nat := a.toNat + b.toNat

/-- The carry of 8xy4: 1 if the sum exceeds 255 (R178). -/
def carryFlag (a b : Byte) : Byte := if addSum a b > 255 then 1#8 else 0#8

/-- The sum modulo 256 (R161, R178). -/
def addResult (a b : Byte) : Byte := BitVec.ofNat 8 (addSum a b)

/-- The flag of 8xy5 and 8xy7: 1 if the minuend is STRICTLY greater (R179, R180, R182). -/
def greaterFlag (minuend subtrahend : Byte) : Byte :=
  if minuend.toNat > subtrahend.toNat then 1#8 else 0#8

/-- The difference modulo 256 (R179, R182). -/
def subResult (minuend subtrahend : Byte) : Byte := minuend - subtrahend

/-- The flag of 8xy6: bit 0 (R181). -/
def shrFlag (a : Byte) : Byte := a &&& 1#8

/-- `V[x] >> 1`, a zero entering bit 7 (R181). -/
def shrResult (a : Byte) : Byte := a >>> 1

/-- The flag of 8xyE: bit 7 in place, 0x00 or 0x80 (R183, spec/90_conflicts.md C8). -/
def shlFlag (a : Byte) : Byte := a &&& 0x80#8

/-- `(V[x] << 1) mod 256` (R183). -/
def shlResult (a : Byte) : Byte := a <<< 1

/-- The flag of Fx1E: 1 if the new `I` exceeds 1000 decimal (R254, R255). -/
def indexFlag (t : Word) : Byte := if t.toNat > indexThreshold then 1#8 else 0#8

/-- The flag of Dxyn: 1 on any collision (R220, R222). -/
def collisionFlag (hit : Bool) : Byte := if hit then 1#8 else 0#8

/-- The check of R172: under `ALIAS_POLICY` = `refuse` a listed form raises AliasRefused before any write. -/
def checkAlias (listed : Bool) (s : State) : Except Trap Unit :=
  if s.params.aliasPolicy = .refuse ∧ listed then .error ⟨.aliasRefused, none⟩ else .ok ()

/-- The two writes of 8xy4 to 8xyE in the order of R171: the flag to VF, then the result to `V[x]`, which
is computed from the state the flag write left. -/
def flagThenResult (x : Reg) (flag : Byte) (result : State → Byte) (s : State) : State :=
  let s1 := s.setReg VF flag
  s1.setReg x (result s1)

end Sys2Proof.Machine
end

