-- ==== Sys2Proof/Machine/Family6to7.lean ====
section
/-! DEFINITION. Families 6 and 7, register immediates (spec/42_family6to7_immediate.md). -/

namespace Sys2Proof.Machine

/-- LD Vx, kk (R160). -/
def execLdImm (x : Reg) (kk : Byte) (s : State) : Host.Outcome State Fault Refusal :=
  commitPure s fun s0 => s0.setReg x kk

/-- ADD Vx, kk (R161): wraps, VF is no flag here. -/
def execAddImm (x : Reg) (kk : Byte) (s : State) : Host.Outcome State Fault Refusal :=
  commitPure s fun s0 => s0.setReg x (addResult (s0.reg x) kk)

end Sys2Proof.Machine
end

