-- ==== Sys2Proof/Machine/Family8.lean ====
section
/-! DEFINITION. Family 8, the 8-bit ALU (spec/43_family8_alu.md). -/

namespace Sys2Proof.Machine

/-- LD Vx, Vy (R174). -/
def execLdReg (x y : Reg) (s : State) : Host.Outcome State Fault Refusal :=
  commitPure s fun s0 => s0.setReg x (s0.reg y)

/-- OR Vx, Vy (R175). -/
def execOrReg (x y : Reg) (s : State) : Host.Outcome State Fault Refusal :=
  commitPure s fun s0 => s0.setReg x (s0.reg x ||| s0.reg y)

/-- AND Vx, Vy (R176). -/
def execAndReg (x y : Reg) (s : State) : Host.Outcome State Fault Refusal :=
  commitPure s fun s0 => s0.setReg x (s0.reg x &&& s0.reg y)

/-- XOR Vx, Vy (R177). -/
def execXorReg (x y : Reg) (s : State) : Host.Outcome State Fault Refusal :=
  commitPure s fun s0 => s0.setReg x (s0.reg x ^^^ s0.reg y)

/-- ADD Vx, Vy (R178): the sum is formed before either write (R171). -/
def execAddReg (x y : Reg) (s : State) : Host.Outcome State Fault Refusal :=
  commit (.addReg x y) s fun s0 => (checkAlias (x == VF) s0).map fun _ =>
    flagThenResult x (carryFlag (s0.reg x) (s0.reg y)) (fun _ => addResult (s0.reg x) (s0.reg y)) s0

/-- SUB Vx, Vy (R179): the difference reads both registers after the flag write (R171). -/
def execSubReg (x y : Reg) (s : State) : Host.Outcome State Fault Refusal :=
  commit (.subReg x y) s fun s0 => (checkAlias (x == VF || y == VF) s0).map fun _ =>
    flagThenResult x (greaterFlag (s0.reg x) (s0.reg y)) (fun s1 => subResult (s1.reg x) (s1.reg y)) s0

/-- SHR Vx (R181): `y` is not read; the shift reads `V[x]` after the flag write (R171). -/
def execShr (x y : Reg) (s : State) : Host.Outcome State Fault Refusal :=
  commit (.shr x y) s fun s0 => (checkAlias (x == VF) s0).map fun _ =>
    flagThenResult x (shrFlag (s0.reg x)) (fun s1 => shrResult (s1.reg x)) s0

/-- SUBN Vx, Vy (R182): the difference reads both registers after the flag write (R171). -/
def execSubn (x y : Reg) (s : State) : Host.Outcome State Fault Refusal :=
  commit (.subn x y) s fun s0 => (checkAlias (x == VF || y == VF) s0).map fun _ =>
    flagThenResult x (greaterFlag (s0.reg y) (s0.reg x)) (fun s1 => subResult (s1.reg y) (s1.reg x)) s0

/-- SHL Vx (R183): `y` is not read; the shift reads `V[x]` after the flag write (R171). -/
def execShl (x y : Reg) (s : State) : Host.Outcome State Fault Refusal :=
  commit (.shl x y) s fun s0 => (checkAlias (x == VF) s0).map fun _ =>
    flagThenResult x (shlFlag (s0.reg x)) (fun s1 => shlResult (s1.reg x)) s0

end Sys2Proof.Machine
end

