-- ==== Sys2Proof/Machine/Family9toC.lean ====
section
/-! DEFINITION. Families 9 to C, register skip, index load, indexed jump, random (spec/44_family9toC_skip_index_jump_random.md). -/

namespace Sys2Proof.Machine

/-- SNE Vx, Vy (R200). -/
def execSneReg (x y : Reg) (s : State) : Host.Outcome State Fault Refusal :=
  commitPure s fun s0 => skipIf (s0.reg x != s0.reg y) s0

/-- LD I, nnn (R201). -/
def execLdI (nnn : Addr) (s : State) : Host.Outcome State Fault Refusal :=
  commitPure s fun s0 => { s0 with index := addressOf nnn }

/-- JP V0, nnn (R202): not masked. -/
def execJpV0 (nnn : Addr) (s : State) : Host.Outcome State Fault Refusal :=
  commitPure s fun s0 => s0.jump (indexedTarget nnn s0)

/-- `Random()` (R6, R210): a fresh FREE byte, and the state with the draw counted. Log entry 2. -/
def drawRandom (s : State) : Byte × State :=
  (Config.randomByte s.draws, { s with draws := s.draws + 1 })

/-- RND Vx, kk (R210). -/
def execRnd (x : Reg) (kk : Byte) (s : State) : Host.Outcome State Fault Refusal :=
  commitPure s fun s0 => (drawRandom s0).2.setReg x ((drawRandom s0).1 &&& kk)

end Sys2Proof.Machine
end

