-- ==== Sys2Proof/Machine/Sprite.lean ====
section
/-! DEFINITION. The sprite unit and its collision detector (spec/45_familyD_draw.md R220 to R223). -/

namespace Sys2Proof.Machine

/-- One sprite row from column `c` on, row `r` of the display: a set bit off the grid ends the row; a
set bit on it flips its pixel, and the detector notes a pixel that was set before. -/
def drawBits : List Bool → Nat → Nat → Grid × Bool → Grid × Bool
  | [], _, _, acc => acc
  | false :: bits, c, r, acc => drawBits bits (c + 1) r acc
  | true :: bits, c, r, acc =>
    if 64 ≤ c ∨ 32 ≤ r then acc
    else drawBits bits (c + 1) r (Grid.flip acc.1 c r, acc.2 || Grid.pixel acc.1 c r)

/-- The sprite rows, downwards from row `r` of the display, each from column `c` on. -/
def drawRows : List Byte → Nat → Nat → Grid × Bool → Grid × Bool
  | [], _, _, acc => acc
  | b :: sprite, c, r, acc => drawRows sprite c (r + 1) (drawBits (spriteBits b) c r acc)

end Sys2Proof.Machine
end

