-- ==== Sys2Proof/Machine/FamilyD.lean ====
section
/-! DEFINITION. Family D, sprite draw (spec/45_familyD_draw.md). -/

namespace Sys2Proof.Machine

/-- DRW Vx, Vy, n (R220): all `n` bytes at `I` are range-checked first (R224); the origin is read before VF
is written (R225); VF is the collision flag (R222); drawFlag is set whatever changed (R223). -/
def execDrw (x y : Reg) (n : Rows) (s : State) : Host.Outcome State Fault Refusal :=
  commit (.drw x y n) s fun s0 => (loadBlock s0.base n.toNat s0).map fun sprite =>
    let drawn := drawRows sprite (originColumn (s0.reg x)) (originRow (s0.reg y)) (s0.disp, false)
    { s0.setReg VF (collisionFlag drawn.2) with disp := drawn.1, drawFlag := true }

end Sys2Proof.Machine
end

