-- ==== Sys2Proof/Machine/FamilyE.lean ====
section
/-! DEFINITION. Family E, key skips (spec/46_familyE_keys.md). -/

namespace Sys2Proof.Machine

/-- SKP Vx (R241). -/
def execSkp (x : Reg) (s : State) : Host.Outcome State Fault Refusal :=
  commit (.skp x) s fun s0 => (keyOperand x s0).map fun k => skipIf (s0.keys[k.val]'k.isLt) s0

/-- SKNP Vx (R242). -/
def execSknp (x : Reg) (s : State) : Host.Outcome State Fault Refusal :=
  commit (.sknp x) s fun s0 => (keyOperand x s0).map fun k => skipIf (!(s0.keys[k.val]'k.isLt)) s0

end Sys2Proof.Machine
end

