-- ==== Sys2Proof/Machine/FamilyF.lean ====
section
/-! DEFINITION. Family F, timers, index arithmetic, key wait, font, decimal and block transfers (spec/47_familyF_misc.md). -/

namespace Sys2Proof.Machine

/-- LD Vx, DT (R250). -/
def execReadDT (x : Reg) (s : State) : Host.Outcome State Fault Refusal :=
  commitPure s fun s0 => s0.setReg x s0.dt

/-- LD DT, Vx (R251). -/
def execSetDT (x : Reg) (s : State) : Host.Outcome State Fault Refusal :=
  commitPure s fun s0 => { s0 with dt := s0.reg x }

/-- LD ST, Vx (R252). -/
def execSetST (x : Reg) (s : State) : Host.Outcome State Fault Refusal :=
  commitPure s fun s0 => { s0 with st := s0.reg x }

/-- `I <- I + V[x]` on the exact sum, or IndexOverflow with the sum (R254). -/
def addToIndex (x : Reg) (s : State) : Except Trap State :=
  let t := s.index.toNat + (s.reg x).toNat
  if t > 0xFFFF then .error ⟨.indexOverflow, some t⟩ else .ok { s with index := BitVec.ofNat 16 t }

/-- ADD I, Vx (R254): VF is written after the sum, from the new `I`. -/
def execAddI (x : Reg) (s : State) : Host.Outcome State Fault Refusal :=
  commit (.addI x) s fun s0 => (addToIndex x s0).map fun s1 => s1.setReg VF (indexFlag s1.index)

/-- LD Vx, K (R256, R257): the lowest pressed key, or `PC` rewound onto this instruction. -/
def execWaitKey (x : Reg) (s : State) : Host.Outcome State Fault Refusal :=
  commitPure s fun s0 =>
    match lowestKey s0.keys with
    | some k => s0.setReg x (BitVec.ofNat 8 k.val)
    | none => s0.jump (s0.pc - 2#16)

/-- LD F, Vx (R258). -/
def execLdFont (x : Reg) (s : State) : Host.Outcome State Fault Refusal :=
  commitPure s fun s0 => { s0 with index := glyphAddress (s0.reg x) }

/-- LD B, Vx (R262): three digits at `I`, always three bytes (R260). -/
def execStoreBcd (x : Reg) (s : State) : Host.Outcome State Fault Refusal :=
  commit (.storeBcd x) s fun s0 => storeBlock s0.base (decimalDigits (s0.reg x)) s0

/-- LD [I], Vx (R264): V0 to Vx ascending at `I`; `I` unchanged. -/
def execStoreRegs (x : Reg) (s : State) : Host.Outcome State Fault Refusal :=
  commit (.storeRegs x) s fun s0 => storeBlock s0.base (s0.regsUpTo x) s0

/-- LD Vx, [I] (R266): V0 to Vx ascending from `I`; `I` unchanged. -/
def execLoadRegs (x : Reg) (s : State) : Host.Outcome State Fault Refusal :=
  commit (.loadRegs x) s fun s0 => (loadBlock s0.base (blockLength x) s0).map fun bytes => s0.setRegs 0 bytes

end Sys2Proof.Machine
end

