-- ==== Sys2Proof/Machine/Fetch.lean ====
section
/-! DEFINITION. The fetch unit (spec/30_encoding.md R91 to R93) and the STEP up to execute (R90). -/

namespace Sys2Proof.Machine

/-- The word at `PC`: high byte at the lower address, no alignment (R91, R93). -/
def State.fetchedWord (s : State) : Word :=
  wordOfBytes (s.byteAt s.pc.toNat) (s.byteAt (s.pc.toNat + 1))

/-- FETCH (R91) but for its advance of `PC`, which `commit` makes: the word, or FetchOutOfRange with the
first address beyond 0xFFF. -/
def fetch (s : State) : Except Trap Word :=
  if s.pc.toNat > 0xFFE then
    .error ⟨.fetchOutOfRange, some (if s.pc.toNat > 0xFFF then s.pc.toNat else s.pc.toNat + 1)⟩
  else .ok s.fetchedWord

/-- FETCH then DECODE (R90, R303): the instruction, or the fault with the opcode to record, `none` where
no word was fetched (R305). -/
def fetchDecode (s : State) : Except (Option Word × Trap) Instr :=
  match fetch s with
  | .error t => .error (none, t)
  | .ok op =>
    match decode op with
    | .error _ => .error (some op, ⟨.decodeError, none⟩)
    | .ok i => .ok i

/-- The core is halted (R306). -/
def State.halted (s : State) : Bool := s.fault.isSome

/-- A word written where the next fetch reads it, in the byte order of R66. -/
def placeWord (op : Word) (s : State) : State := s.setBytes s.pc.toNat (bytesOfWord op)

end Sys2Proof.Machine
end

