-- ==== Sys2Proof/Machine/Step.lean ====
section
/-! DEFINITION. The STEP (spec/30_encoding.md R90) and the host's way to place an instruction. -/

namespace Sys2Proof.Machine

/-- One STEP (R90): refused while halted (R334); else fetch and decode, whose fault is taken, or execute. -/
def step (s : State) : Host.Outcome State Fault Refusal :=
  if s.halted then .refused .halted
  else
    match fetchDecode s with
    | .error (opcode, t) => .next (takeFault opcode t s)
    | .ok i => exec i s

/-- The instruction whose bits are `w` stored where `step` fetches next, at `PC`, high byte first; bits
from `nbits` up are 0. Nothing but those two bytes changes. The core fetches at `PC` whatever placed the
bytes there; the host's LOAD is how a program gets there (R352, log entry 9). -/
def State.withFetchWord (s : State) (nbits w : Nat) : State := placeWord (BitVec.ofNat 16 (w % 2 ^ nbits)) s

end Sys2Proof.Machine
end

