-- ==== Sys2Proof/Machine/HostOps.lean ====
section
/-! DEFINITION. The host's operations on the core (spec/60_exceptions.md R330), each atomic and between
STEPs, in an order the host chooses (R5). -/

namespace Sys2Proof.Machine

/-- The operations of R330. -/
inductive HostOp where
  | reset
  | load (bytes : List Byte)
  | setKeys (k : Word)
  | step
  | tick
  | readDisplay
  | readFlags
  | clearDraw
  deriving DecidableEq, Repr

/-- What the host gets (R330). -/
inductive Reply where
  /-- Nothing: RESET, SETKEYS, TICK, CLEARDRAW, a STEP that took no fault. -/
  | nothing
  /-- LOAD: the program is in memory. -/
  | ok
  /-- LOAD: the program does not fit, nothing changed (R352). -/
  | loadError
  /-- STEP: the fault it took. -/
  | faulted (record : FaultRecord)
  /-- STEP: refused, the core is halted (R334). -/
  | refused
  /-- READ_DISPLAY: 2048 pixels, row-major (R333). -/
  | display (pixels : List Bool)
  /-- READ_FLAGS: `drawFlag`, the sound bit, `Fault` (R333). -/
  | flags (drawFlag sound : Bool) (fault : Option FaultRecord)
  deriving DecidableEq, Repr

/-- The sound output `ST != 0` (R322). -/
def State.soundOn (s : State) : Bool := s.st != 0#8

/-- RESET (R350, R351). The parameters are no state and stay (R43); the count of random draws stays too,
so that a RESET does not repeat them (log entry 2). -/
def hostReset (s : State) : State := { State.reset with draws := s.draws, params := s.params }

/-- LOAD (R352): `none` is LoadError. -/
def hostLoad (bytes : List Byte) (s : State) : Option State :=
  if bytes.length > programMax then none else some (s.setBytes programBase bytes)

/-- The key vector of a 16-bit value, bit `k` for key `k` (R332). -/
def keysOf (k : Word) : Vector Bool 16 := Vector.ofFn fun j => k.getLsbD j.val

/-- SETKEYS (R332): all 16 keys at once. -/
def hostSetKeys (k : Word) (s : State) : State := { s with keys := keysOf k }

/-- One timer's part of TICK: down by 1, staying at 0 (R320). -/
def countDown (t : Byte) : Byte := if t.toNat > 0 then BitVec.ofNat 8 (t.toNat - 1) else t

/-- TICK (R320): both timers, also while halted. -/
def hostTick (s : State) : State := { s with dt := countDown s.dt, st := countDown s.st }

/-- READ_DISPLAY (R333): pixel `(c, r)` at index `r * 64 + c`. -/
def hostReadDisplay (s : State) : List Bool :=
  (List.range 2048).map fun k => Grid.pixel s.disp (k % 64) (k / 64)

/-- CLEARDRAW (R333). -/
def hostClearDraw (s : State) : State := { s with drawFlag := false }

/-- A STEP request (R334): the core steps, and the host gets the fault record if it took a fault; a halted
core refuses and nothing changes. -/
def hostStep (s : State) : State × Reply :=
  match step s with
  | .next t =>
    match t.fault with
    | none => (t, .nothing)
    | some record => (t, .faulted record)
  | .fault _ => (s, .refused)
  | .refused _ => (s, .refused)

/-- One host operation: the state after it and what the host gets (R330). -/
def hostOp (op : HostOp) (s : State) : State × Reply :=
  match op with
  | .reset => (hostReset s, .nothing)
  | .load bytes =>
    match hostLoad bytes s with
    | some t => (t, .ok)
    | none => (s, .loadError)
  | .setKeys k => (hostSetKeys k s, .nothing)
  | .step => hostStep s
  | .tick => (hostTick s, .nothing)
  | .readDisplay => (s, .display (hostReadDisplay s))
  | .readFlags => (s, .flags s.drawFlag s.soundOn s.fault)
  | .clearDraw => (hostClearDraw s, .nothing)

/-- A run: any host operations in any order (R5, R321, R354). -/
def hostRun : List HostOp → State → State
  | [], s => s
  | op :: ops, s => hostRun ops (hostOp op s).1

end Sys2Proof.Machine
end

