-- ==== Sys2Proof/Safety.lean ====
section
/-! DEFINITION. The terms statements are made in: completing and trapping, frames, the invariants of the
core, the ends of a run. -/

namespace Sys2Proof.Safety

open Sys2Proof.Machine

/-- The instruction answers a next state, and that state is as `post` says. -/
def Completes (i : Instr) (s : State) (post : State → Prop) : Prop := ∃ t, exec i s = .next t ∧ post t

/-- The instruction takes a fault: the record is written with the instruction's address and word, and
everything else, `PC` included, is as before the STEP (spec/60_exceptions.md R305, R306). -/
def Traps (i : Instr) (s : State) (cause : Fault) (info : Option Nat) : Prop :=
  exec i s = .next { s with
    fault := some { cause := cause, pc := s.pc, opcode := some (encode i), info := info } }

/-- The words of one row of the opcode map decode to its instruction (R104, R110). -/
def DecodesAs (mask bits : Word) (build : Word → Instr) : Prop :=
  ∀ op : Word, op &&& mask = bits → decode op = .ok (build op)

/-- What an instruction may change besides `PC`: some registers, some of the special registers and
devices, the `count` bytes of memory from `base` on. -/
structure Touch where
  regs     : List Reg := []
  index    : Bool := false
  stack    : Bool := false
  disp     : Bool := false
  drawFlag : Bool := false
  dt       : Bool := false
  st       : Bool := false
  draws    : Bool := false
  base     : Nat := 0
  count    : Nat := 0

/-- From `s` to `t` nothing changes but `PC` and what `k` lists; the keys, the fault status and the
parameters are never listed. -/
structure Frame (k : Touch) (s t : State) : Prop where
  regs     : ∀ r, r ∉ k.regs → t.reg r = s.reg r
  index    : k.index = false → t.index = s.index
  stack    : k.stack = false → t.stack = s.stack
  disp     : k.disp = false → t.disp = s.disp
  drawFlag : k.drawFlag = false → t.drawFlag = s.drawFlag
  dt       : k.dt = false → t.dt = s.dt
  st       : k.st = false → t.st = s.st
  draws    : k.draws = false → t.draws = s.draws
  bytes    : ∀ a, ¬ (k.base ≤ a ∧ a < k.base + k.count) → t.byteAt a = s.byteAt a
  keys     : t.keys = s.keys
  fault    : t.fault = s.fault
  params   : t.params = s.params

/-- The two states differ at most in register `r`. -/
structure AgreeButReg (r : Reg) (s t : State) : Prop where
  regs : ∀ q, q ≠ r → t.reg q = s.reg q
  rest : { t with v := s.v } = s

/-- The registers V0 to Vx, which Fx55 reads and Fx65 writes (R264, R266). -/
def blockRegs (x : Reg) : List Reg := (List.range (x.toNat + 1)).map fun k => BitVec.ofNat 4 k

/-- The address right after an instruction in memory (R26). -/
def nextPc (s : State) : Word := s.pc + 2#16

/-- Where a skip leaves `PC` (R140). -/
def skipPc (cond : Prop) [Decidable cond] (s : State) : Word := if cond then s.pc + 4#16 else s.pc + 2#16

/-! ### Sprites -/

/-- A set bit of the sprite that Dxyn draws lands on the pixel `(c, r)`, which is on the grid: some row
`k` below `n` and some bit `j` (0 leftmost) of the byte at `I + k`, with the origin at column
`V[x] mod 64` and row `V[y]` (spec/45_familyD_draw.md R220, R221). -/
def covers (s : State) (x y : Reg) (n : Rows) (c r : Nat) : Prop :=
  c < 64 ∧ r < 32 ∧ ∃ k j, k < n.toNat ∧ j < 8 ∧
    c = (s.reg x).toNat % 64 + j ∧ r = (s.reg y).toNat + k ∧
    (s.byteAt (s.index.toNat + k)).getLsbD (7 - j) = true

/-! ### Which instruction may do what -/

/-- The forms of spec/43_family8_alu.md R172: the result depends on the order of the flag write. -/
def aliasListed : Instr → Bool
  | .addReg x _ | .shr x _ | .shl x _ => x == VF
  | .subReg x y | .subn x y => x == VF || y == VF
  | _ => false

/-- The execute faults of an instruction (spec/60_exceptions.md R301). -/
def causesOf : Instr → List Fault
  | .ret => [.stackUnderflow]
  | .call _ => [.stackOverflow]
  | .addReg _ _ | .subReg _ _ | .shr _ _ | .subn _ _ | .shl _ _ => [.aliasRefused]
  | .drw _ _ _ | .storeBcd _ | .storeRegs _ | .loadRegs _ => [.dataOutOfRange]
  | .skp _ | .sknp _ => [.keyIndexOutOfRange]
  | .addI _ => [.indexOverflow]
  | _ => []

/-- The `info` that R301 records for a cause. -/
def infoFits : Fault → Option Nat → Bool
  | .decodeError, none | .stackUnderflow, none | .stackOverflow, none | .aliasRefused, none => true
  | .fetchOutOfRange, some a | .dataOutOfRange, some a => decide (0xFFF < a)
  | .keyIndexOutOfRange, some k => decide (15 < k)
  | .indexOverflow, some t => decide (0xFFFF < t)
  | _, _ => false

/-- DataOutOfRange when some of the `count` addresses from `I` on exceeds 0xFFF, with the lowest such one. -/
def rangeFault (s : State) (count : Nat) : Option Trap :=
  if count ≠ 0 ∧ 0x1000 < s.index.toNat + count then
    some ⟨.dataOutOfRange, some (max s.index.toNat 0x1000)⟩
  else none

/-- AliasRefused for a listed form under `refuse`. -/
def aliasFault (listed : Bool) (s : State) : Option Trap :=
  if s.params.aliasPolicy = .refuse ∧ listed = true then some ⟨.aliasRefused, none⟩ else none

/-- KeyIndexOutOfRange when `V[x]` > 15, with `V[x]`. -/
def keyFault (x : Reg) (s : State) : Option Trap :=
  if 15 < (s.reg x).toNat then some ⟨.keyIndexOutOfRange, some (s.reg x).toNat⟩ else none

/-- The fault that a decoded instruction raises in a state, with its `info`, if it raises one: the columns
"when" and "`info` recorded" of the table of spec/60_exceptions.md R301, for codes 2 and 4 to 8. It is
written from that table, not from the meanings. -/
def executeFault : Instr → State → Option Trap
  | .ret, s => if s.stack = [] then some ⟨.stackUnderflow, none⟩ else none
  | .call _, s => if s.params.stackDepth = some s.stack.length then some ⟨.stackOverflow, none⟩ else none
  | .addReg x y, s => aliasFault (aliasListed (.addReg x y)) s
  | .subReg x y, s => aliasFault (aliasListed (.subReg x y)) s
  | .shr x y, s => aliasFault (aliasListed (.shr x y)) s
  | .subn x y, s => aliasFault (aliasListed (.subn x y)) s
  | .shl x y, s => aliasFault (aliasListed (.shl x y)) s
  | .drw _ _ n, s => rangeFault s n.toNat
  | .skp x, s | .sknp x, s => keyFault x s
  | .addI x, s =>
    if 0xFFFF < s.index.toNat + (s.reg x).toNat then
      some ⟨.indexOverflow, some (s.index.toNat + (s.reg x).toNat)⟩
    else none
  | .storeBcd _, s => rangeFault s 3
  | .storeRegs x, s | .loadRegs x, s => rangeFault s (x.toNat + 1)
  | .cls, _ | .jp _, _ | .seImm _ _, _ | .sneImm _ _, _ | .seReg _ _, _ | .ldImm _ _, _ | .addImm _ _, _
  | .ldReg _ _, _ | .orReg _ _, _ | .andReg _ _, _ | .xorReg _ _, _ | .sneReg _ _, _ | .ldI _, _
  | .jpV0 _, _ | .rnd _ _, _ | .readDT _, _ | .setDT _, _ | .setST _, _ | .waitKey _, _ | .ldFont _, _ => none

/-- The fault record that a STEP of a core that is not halted writes, or `none` if it raises no fault: the
conditions and `info` of R301 in the priority of R303, in the record of R305. -/
def dueFault (s : State) : Option FaultRecord :=
  if 0xFFE < s.pc.toNat then
    some { cause := .fetchOutOfRange, pc := s.pc, opcode := none, info := some (max s.pc.toNat 0x1000) }
  else
    match decode s.fetchedWord with
    | .error _ => some { cause := .decodeError, pc := s.pc, opcode := some s.fetchedWord, info := none }
    | .ok i => (executeFault i s).map fun trap =>
        { cause := trap.cause, pc := s.pc, opcode := some s.fetchedWord, info := trap.info }

/-- The registers an instruction reads (spec/10_state.md R22). -/
def readsReg : Instr → Reg → Bool
  | .seImm x _, r | .sneImm x _, r | .addImm x _, r | .shr x _, r | .shl x _, r | .skp x, r
  | .sknp x, r | .setDT x, r | .setST x, r | .addI x, r | .ldFont x, r | .storeBcd x, r => r == x
  | .seReg x y, r | .orReg x y, r | .andReg x y, r | .xorReg x y, r | .addReg x y, r
  | .subReg x y, r | .subn x y, r | .sneReg x y, r | .drw x y _, r => r == x || r == y
  | .ldReg _ y, r => r == y
  | .jpV0 _, r => r == 0x0#4
  | .storeRegs x, r => decide (r.toNat ≤ x.toNat)
  | _, _ => false

/-- The registers an instruction may write (spec/10_state.md R23). -/
def writesReg : Instr → Reg → Bool
  | .ldImm x _, r | .addImm x _, r | .ldReg x _, r | .orReg x _, r | .andReg x _, r | .xorReg x _, r
  | .rnd x _, r | .readDT x, r | .waitKey x, r => r == x
  | .addReg x _, r | .subReg x _, r | .shr x _, r | .subn x _, r | .shl x _, r => r == x || r == VF
  | .addI _, r | .drw _ _ _, r => r == VF
  | .loadRegs x, r => decide (r.toNat ≤ x.toNat)
  | _, _ => false

/-! ### Invariants -/

/-- Memory is in its canonical form. -/
def MemoryCanonical (s : State) : Prop := Memory.wf (initialByte s.params) s.mem = true

/-- `PC` and the return addresses stay in the range of spec/10_state.md R28. -/
def PcInRange (s : State) : Prop := s.pc.toNat ≤ 0x10FE ∧ ∀ a ∈ s.stack, a.toNat ≤ 0x1000

/-- The stack never holds more than `STACK_DEPTH` entries, when that is a number (R30, R31). -/
def StackWithinDepth (s : State) : Prop :=
  ∀ depth, s.params.stackDepth = some depth → s.stack.length ≤ depth

/-- A fault record names the address the core stopped at, an opcode unless the fetch faulted, and the
`info` of its cause (R301, R305, R306). -/
def RecordSound (s : State) : Prop :=
  ∀ record, s.fault = some record →
    record.pc = s.pc ∧ (record.opcode = none ↔ record.cause = .fetchOutOfRange) ∧
      infoFits record.cause record.info = true

/-- The invariants of the core together. -/
structure Inv (s : State) : Prop where
  memory : MemoryCanonical s
  pc     : PcInRange s
  stack  : StackWithinDepth s
  record : RecordSound s

/-! ### The ends of a run (spec/70_reset_and_hazards.md R375) -/

/-- The idle end: the word at `PC` is `1nnn` with `nnn` = `PC`, and the core is not halted. -/
def IdleEnd (s : State) : Prop :=
  s.fault = none ∧ s.pc.toNat ≤ 0xFFE ∧ s.fetchedWord = 0x1000#16 ||| s.pc

/-- Not an end: an Fx0A at `PC` with no key pressed (R257). -/
def WaitingForKey (s : State) : Prop :=
  s.fault = none ∧ s.pc.toNat ≤ 0xFFE ∧ s.fetchedWord &&& 0xF0FF#16 = 0xF00A#16 ∧
    ∀ k : Fin 16, s.keys[k.val]'k.isLt = false

end Sys2Proof.Safety
end

