-- ==== Sys2Proof/Certificates/Slice0/Obligations.lean ====
section
/-! DEFINITION. The statements for the provers, each from numbered rules of spec/. Every statement holds
for every value of the parameters of R8 and of the free random byte. A docstring names the decisions of
spec/92_eei_decisions.md (the spec's own choices, where its source is silent) that a statement rests on. -/

open Sys2Proof Sys2Proof.Machine Sys2Proof.Safety

/-! ### The STEP, the decoder and the encoder -/

/-- R90, R91, R303, R305, R334: what a STEP does, in four cases: halted, nothing to fetch, no instruction,
an instruction (the word's high byte at `PC`, R93). Everything an instruction does, the advance of `PC`
included, is in `exec`.
The spec's own decisions: D1, D4, D5, D6, D7, D27. -/
def Obligations.StepRunsFetchedInstruction : Prop :=
  ∀ s : State,
    (s.fault ≠ none → step s = .refused .halted) ∧
    (s.fault = none → 0xFFE < s.pc.toNat → step s = .next { s with
      fault := some { cause := .fetchOutOfRange, pc := s.pc, opcode := none,
                      info := some (if s.pc.toNat > 0xFFF then s.pc.toNat else s.pc.toNat + 1) } }) ∧
    (s.fault = none → s.pc.toNat ≤ 0xFFE → ∀ op : Word,
      op = s.byteAt s.pc.toNat ++ s.byteAt (s.pc.toNat + 1) →
      ((∀ i, decode op ≠ .ok i) → step s = .next { s with
        fault := some { cause := .decodeError, pc := s.pc, opcode := some op, info := none } }) ∧
      (∀ i, decode op = .ok i → step s = exec i s))

/-- An instruction word that `State.withFetchWord` places is the one the very next step runs.
The model's own placing of a word: log entry 9. -/
def Obligations.PlacedWordRunsNext : Prop :=
  ∀ (s : State) (w : Nat) (i : Instr), s.fault = none → s.pc.toNat ≤ 0xFFE →
    decodeTableWord 16 w = some i → step (s.withFetchWord 16 w) = exec i (s.withFetchWord 16 w)

/-- R101, R103, R110: decoding the word of any instruction gives it back, every field at every value.
The spec's own decision: D6. -/
def Obligations.DecodeOfEncode : Prop :=
  ∀ i : Instr, i.wellFormed = true → decode (encode i) = .ok i

/-- R104, R105: a word that decodes is the word of its instruction: no bit of it is ignored.
The spec's own decision: D6. -/
def Obligations.EncodeOfDecode : Prop :=
  ∀ (op : Word) (i : Instr), decode op = .ok i → encode i = op

/-- R111: exactly the words outside the per-family listing of illegal words decode; every other is
rejected by name.
The spec's own decision: D6. -/
def Obligations.LegalWordsDecode : Prop :=
  ∀ op : Word, (legalWord op = true → ∃ i, decode op = .ok i) ∧
    (legalWord op = false → decode op = .error (.illegal op))

/-- R104: "The rows of rule R110 are disjoint, so at most one matches".
The spec's own decision: D6. -/
def Obligations.AtMostOneRowAccepts : Prop :=
  ∀ r ∈ rows, ∀ q ∈ rows, ∀ op : Word, r.accepts op = true → q.accepts op = true → r.pattern = q.pattern

/-- A few words written out from R110, one family each, decode to the instruction they stand for.
The spec's own decision: D6. -/
def Obligations.SampleWordsDecode : Prop :=
  decode 0x00EE#16 = .ok .ret ∧ decode 0x2ABC#16 = .ok (.call 0xABC#12) ∧
  decode 0x5120#16 = .ok (.seReg 0x1#4 0x2#4) ∧ decode 0x6A42#16 = .ok (.ldImm 0xA#4 0x42#8) ∧
  decode 0x8F15#16 = .ok (.subReg 0xF#4 0x1#4) ∧ decode 0xB300#16 = .ok (.jpV0 0x300#12) ∧
  decode 0xD125#16 = .ok (.drw 0x1#4 0x2#4 0x5#4) ∧ decode 0xE2A1#16 = .ok (.sknp 0x2#4) ∧
  decode 0xF365#16 = .ok (.loadRegs 0x3#4) ∧ decode 0x5121#16 = .error (.illegal 0x5121#16)

/-! ### Families 0 to 5 -/

/-- R130. -/
def Obligations.ClsClearsDisplay : Prop :=
  DecodesAs 0xFFFF#16 0x00E0#16 (fun _ => .cls) ∧
  ∀ s : State, Completes .cls s fun t =>
    (∀ c r, Grid.pixel t.disp c r = false) ∧ t.drawFlag = true ∧ t.pc = nextPc s ∧
      Frame { disp := true, drawFlag := true } s t

/-- R131: with an entry on the stack it is popped into `PC`; with none, StackUnderflow.
The spec's own decision: D7. -/
def Obligations.RetPopsOrUnderflows : Prop :=
  DecodesAs 0xFFFF#16 0x00EE#16 (fun _ => .ret) ∧
  ∀ s : State,
    (∀ a rest, s.stack = a :: rest → Completes .ret s fun t =>
      t.pc = a ∧ t.stack = rest ∧ Frame { stack := true } s t) ∧
    (s.stack = [] → Traps .ret s .stackUnderflow none)

/-- R141. -/
def Obligations.JpSetsPc : Prop :=
  DecodesAs 0xF000#16 0x1000#16 (fun op => .jp (fieldNNN op)) ∧
  ∀ (nnn : Addr) (s : State), Completes (.jp nnn) s fun t => t.pc.toNat = nnn.toNat ∧ Frame {} s t

/-- R142, R31: the address after the call is pushed, unless the stack is full.
The spec's own decisions: D7, D11. -/
def Obligations.CallPushesOrOverflows : Prop :=
  DecodesAs 0xF000#16 0x2000#16 (fun op => .call (fieldNNN op)) ∧
  ∀ (nnn : Addr) (s : State),
    (s.params.stackDepth ≠ some s.stack.length → Completes (.call nnn) s fun t =>
      t.pc.toNat = nnn.toNat ∧ t.stack = nextPc s :: s.stack ∧ Frame { stack := true } s t) ∧
    (s.params.stackDepth = some s.stack.length → Traps (.call nnn) s .stackOverflow none)

/-- "Calling `2nnn` then `00EE` returns PC to the instruction immediately after the original call" (R142,
R131), wherever the subroutine has got to, if it left the stack as it found it.
The spec's own decision: D11. -/
def Obligations.RetUndoesCall : Prop :=
  ∀ (nnn : Addr) (s : State), s.params.stackDepth ≠ some s.stack.length →
    Completes (.call nnn) s fun t => ∀ u : State, u.stack = t.stack →
      Completes .ret u fun w => w.pc = nextPc s ∧ w.stack = s.stack

/-- R143, R144, R140: skips on a register and an immediate. -/
def Obligations.ImmediateSkips : Prop :=
  DecodesAs 0xF000#16 0x3000#16 (fun op => .seImm (fieldX op) (fieldKK op)) ∧
  DecodesAs 0xF000#16 0x4000#16 (fun op => .sneImm (fieldX op) (fieldKK op)) ∧
  ∀ (x : Reg) (kk : Byte) (s : State),
    (Completes (.seImm x kk) s fun t => t.pc = skipPc (s.reg x = kk) s ∧ Frame {} s t) ∧
    (Completes (.sneImm x kk) s fun t => t.pc = skipPc (s.reg x ≠ kk) s ∧ Frame {} s t)

/-- R145, R200, R140: skips on two registers. -/
def Obligations.RegisterSkips : Prop :=
  DecodesAs 0xF00F#16 0x5000#16 (fun op => .seReg (fieldX op) (fieldY op)) ∧
  DecodesAs 0xF00F#16 0x9000#16 (fun op => .sneReg (fieldX op) (fieldY op)) ∧
  ∀ (x y : Reg) (s : State),
    (Completes (.seReg x y) s fun t => t.pc = skipPc (s.reg x = s.reg y) s ∧ Frame {} s t) ∧
    (Completes (.sneReg x y) s fun t => t.pc = skipPc (s.reg x ≠ s.reg y) s ∧ Frame {} s t)

/-! ### Families 6 and 7, and the ALU -/

/-- R160, R161: VF is written only as the destination. -/
def Obligations.ImmediateLoadAndAdd : Prop :=
  DecodesAs 0xF000#16 0x6000#16 (fun op => .ldImm (fieldX op) (fieldKK op)) ∧
  DecodesAs 0xF000#16 0x7000#16 (fun op => .addImm (fieldX op) (fieldKK op)) ∧
  ∀ (x : Reg) (kk : Byte) (s : State),
    (Completes (.ldImm x kk) s fun t =>
      t.reg x = kk ∧ t.pc = nextPc s ∧ Frame { regs := [x] } s t) ∧
    (Completes (.addImm x kk) s fun t =>
      (t.reg x).toNat = ((s.reg x).toNat + kk.toNat) % 256 ∧ t.pc = nextPc s ∧ Frame { regs := [x] } s t)

/-- R174 to R177: no flag effect; VF is an ordinary source and destination. -/
def Obligations.CopyAndLogic : Prop :=
  DecodesAs 0xF00F#16 0x8000#16 (fun op => .ldReg (fieldX op) (fieldY op)) ∧
  DecodesAs 0xF00F#16 0x8001#16 (fun op => .orReg (fieldX op) (fieldY op)) ∧
  DecodesAs 0xF00F#16 0x8002#16 (fun op => .andReg (fieldX op) (fieldY op)) ∧
  DecodesAs 0xF00F#16 0x8003#16 (fun op => .xorReg (fieldX op) (fieldY op)) ∧
  ∀ (x y : Reg) (s : State),
    (Completes (.ldReg x y) s fun t =>
      t.reg x = s.reg y ∧ t.pc = nextPc s ∧ Frame { regs := [x] } s t) ∧
    (Completes (.orReg x y) s fun t =>
      t.reg x = s.reg x ||| s.reg y ∧ t.pc = nextPc s ∧ Frame { regs := [x] } s t) ∧
    (Completes (.andReg x y) s fun t =>
      t.reg x = s.reg x &&& s.reg y ∧ t.pc = nextPc s ∧ Frame { regs := [x] } s t) ∧
    (Completes (.xorReg x y) s fun t =>
      t.reg x = s.reg x ^^^ s.reg y ∧ t.pc = nextPc s ∧ Frame { regs := [x] } s t)

/-- R178: the sum is formed before either write; with `x` = F the sum overwrites the carry (R171).
The spec's own decisions: D2, D7. -/
def Obligations.AddWithCarry : Prop :=
  DecodesAs 0xF00F#16 0x8004#16 (fun op => .addReg (fieldX op) (fieldY op)) ∧
  ∀ (x y : Reg) (s : State),
    (s.params.aliasPolicy = .sequential ∨ x ≠ VF → Completes (.addReg x y) s fun t =>
      (t.reg x).toNat = ((s.reg x).toNat + (s.reg y).toNat) % 256 ∧
      (x ≠ VF → t.reg VF = if (s.reg x).toNat + (s.reg y).toNat > 255 then 1#8 else 0#8) ∧
      t.pc = nextPc s ∧ Frame { regs := [x, VF] } s t) ∧
    (s.params.aliasPolicy = .refuse → x = VF → Traps (.addReg x y) s .aliasRefused none)

/-- R179, R180: the flag `c` is the strict comparison of the old values; the difference reads the registers
after the flag write, so an operand that is VF is `c` (R171).
The spec's own decisions: D2, D7. -/
def Obligations.SubtractStrictFlag : Prop :=
  DecodesAs 0xF00F#16 0x8005#16 (fun op => .subReg (fieldX op) (fieldY op)) ∧
  ∀ (x y : Reg) (s : State) (c : Byte),
    c = (if (s.reg x).toNat > (s.reg y).toNat then 1#8 else 0#8) →
    (s.params.aliasPolicy = .sequential ∨ (x ≠ VF ∧ y ≠ VF) → Completes (.subReg x y) s fun t =>
      (t.reg x).toNat =
        (256 + (if x = VF then c else s.reg x).toNat - (if y = VF then c else s.reg y).toNat) % 256 ∧
      (x ≠ VF → t.reg VF = c) ∧ t.pc = nextPc s ∧ Frame { regs := [x, VF] } s t) ∧
    (s.params.aliasPolicy = .refuse → x = VF ∨ y = VF → Traps (.subReg x y) s .aliasRefused none)

/-- R182, R180: the same with the operands the other way round.
The spec's own decisions: D2, D7. -/
def Obligations.ReverseSubtractStrictFlag : Prop :=
  DecodesAs 0xF00F#16 0x8007#16 (fun op => .subn (fieldX op) (fieldY op)) ∧
  ∀ (x y : Reg) (s : State) (c : Byte),
    c = (if (s.reg y).toNat > (s.reg x).toNat then 1#8 else 0#8) →
    (s.params.aliasPolicy = .sequential ∨ (x ≠ VF ∧ y ≠ VF) → Completes (.subn x y) s fun t =>
      (t.reg x).toNat =
        (256 + (if y = VF then c else s.reg y).toNat - (if x = VF then c else s.reg x).toNat) % 256 ∧
      (x ≠ VF → t.reg VF = c) ∧ t.pc = nextPc s ∧ Frame { regs := [x, VF] } s t) ∧
    (s.params.aliasPolicy = .refuse → x = VF ∨ y = VF → Traps (.subn x y) s .aliasRefused none)

/-- R181, R183: the bit shifted out goes to VF, after SHL in place (0x80); with `x` = F the result is 0.
The spec's own decisions: D2, D7. -/
def Obligations.Shifts : Prop :=
  DecodesAs 0xF00F#16 0x8006#16 (fun op => .shr (fieldX op) (fieldY op)) ∧
  DecodesAs 0xF00F#16 0x800E#16 (fun op => .shl (fieldX op) (fieldY op)) ∧
  ∀ (x y : Reg) (s : State),
    (s.params.aliasPolicy = .sequential ∨ x ≠ VF →
      (Completes (.shr x y) s fun t =>
        (t.reg x).toNat = (if x = VF then 0 else (s.reg x).toNat / 2) ∧
        (x ≠ VF → (t.reg VF).toNat = (s.reg x).toNat % 2) ∧
        t.pc = nextPc s ∧ Frame { regs := [x, VF] } s t) ∧
      (Completes (.shl x y) s fun t =>
        (t.reg x).toNat = (if x = VF then 0 else (s.reg x).toNat * 2 % 256) ∧
        (x ≠ VF → (t.reg VF).toNat = if 128 ≤ (s.reg x).toNat then 0x80 else 0x00) ∧
        t.pc = nextPc s ∧ Frame { regs := [x, VF] } s t)) ∧
    (s.params.aliasPolicy = .refuse → x = VF →
      Traps (.shr x y) s .aliasRefused none ∧ Traps (.shl x y) s .aliasRefused none)

/-- R181, R183: `V[y]` is not read and the field `y` has no effect at all.
The spec's own decision: D2. -/
def Obligations.ShiftsIgnoreY : Prop :=
  ∀ (x y y' : Reg) (s : State), s.params.aliasPolicy = .sequential ∨ x ≠ VF →
    exec (.shr x y) s = exec (.shr x y') s ∧ exec (.shl x y) s = exec (.shl x y') s

/-- R173: the flag laws, for `x` and `y` other than F.
The spec's own decision: D2. -/
def Obligations.FlagLaws : Prop :=
  ∀ (x y : Reg) (s t : State), x ≠ VF → y ≠ VF →
    (exec (.addReg x y) s = .next t →
      (s.reg x).toNat + (s.reg y).toNat = (t.reg x).toNat + 256 * (t.reg VF).toNat ∧
      (t.reg VF = 1#8 ↔ (s.reg x).toNat + (s.reg y).toNat > 255)) ∧
    (exec (.subReg x y) s = .next t → (t.reg VF = 1#8 ↔ (s.reg x).toNat > (s.reg y).toNat) ∧
      (t.reg VF = 0#8 ∨ t.reg VF = 1#8)) ∧
    (exec (.subn x y) s = .next t → (t.reg VF = 1#8 ↔ (s.reg y).toNat > (s.reg x).toNat) ∧
      (t.reg VF = 0#8 ∨ t.reg VF = 1#8)) ∧
    (exec (.shr x y) s = .next t → (t.reg VF = 1#8 ↔ (s.reg x).getLsbD 0 = true) ∧
      (t.reg VF = 0#8 ∨ t.reg VF = 1#8)) ∧
    (exec (.shl x y) s = .next t → (t.reg VF = 0x80#8 ↔ (s.reg x).getLsbD 7 = true) ∧
      (t.reg VF = 0x00#8 ∨ t.reg VF = 0x80#8))

/-- R171: the table of what VF as an operand gives, with `f` the old VF, `a` and `b` the old values of the
other register; and 8xy0 to 8xy3, where VF is an ordinary destination and source.
The spec's own decision: D2. -/
def Obligations.AliasTable : Prop :=
  ∀ (s : State) (q : Reg), s.params.aliasPolicy = .sequential → q ≠ VF →
    ∀ a f : Byte, a = s.reg q → f = s.reg VF →
      (Completes (.addReg VF q) s fun t => t.reg VF = f + a) ∧
      (Completes (.addReg q VF) s fun t =>
        t.reg VF = (if a.toNat + f.toNat > 255 then 1#8 else 0#8) ∧ t.reg q = a + f) ∧
      (Completes (.addReg VF VF) s fun t => t.reg VF = f + f) ∧
      (Completes (.subReg VF q) s fun t => t.reg VF = (if f.toNat > a.toNat then 1#8 else 0#8) - a) ∧
      (Completes (.subReg q VF) s fun t =>
        t.reg VF = (if a.toNat > f.toNat then 1#8 else 0#8) ∧ t.reg q = a - t.reg VF) ∧
      (Completes (.subReg VF VF) s fun t => t.reg VF = 0#8) ∧
      (∀ y, Completes (.shr VF y) s fun t => t.reg VF = 0#8) ∧
      (Completes (.subn VF q) s fun t => t.reg VF = a - (if a.toNat > f.toNat then 1#8 else 0#8)) ∧
      (Completes (.subn q VF) s fun t =>
        t.reg VF = (if f.toNat > a.toNat then 1#8 else 0#8) ∧ t.reg q = t.reg VF - a) ∧
      (Completes (.subn VF VF) s fun t => t.reg VF = 0#8) ∧
      (∀ y, Completes (.shl VF y) s fun t => t.reg VF = 0#8) ∧
      (Completes (.ldReg VF q) s fun t => t.reg VF = a) ∧ (Completes (.ldReg q VF) s fun t => t.reg q = f) ∧
      (Completes (.orReg VF q) s fun t => t.reg VF = f ||| a) ∧
      (Completes (.orReg q VF) s fun t => t.reg q = a ||| f) ∧
      (Completes (.andReg VF q) s fun t => t.reg VF = f &&& a) ∧
      (Completes (.andReg q VF) s fun t => t.reg q = a &&& f) ∧
      (Completes (.xorReg VF q) s fun t => t.reg VF = f ^^^ a) ∧
      (Completes (.xorReg q VF) s fun t => t.reg q = a ^^^ f)

/-- R172: under `refuse` exactly the listed forms raise AliasRefused; under `sequential` none does.
The spec's own decisions: D2, D7. -/
def Obligations.AliasRefusedExactlyWhenListed : Prop :=
  ∀ (i : Instr) (s : State), s.fault = none →
    (s.params.aliasPolicy = .refuse → aliasListed i = true → Traps i s .aliasRefused none) ∧
    (s.params.aliasPolicy = .sequential ∨ aliasListed i = false →
      ∀ t record, exec i s = .next t → t.fault = some record → record.cause ≠ .aliasRefused)

/-! ### Families 9 to C -/

/-- R201, R202: the indexed jump adds V0, and the sum is not reduced to 12 bits.
The spec's own decision: D28. -/
def Obligations.IndexLoadAndIndexedJump : Prop :=
  DecodesAs 0xF000#16 0xA000#16 (fun op => .ldI (fieldNNN op)) ∧
  DecodesAs 0xF000#16 0xB000#16 (fun op => .jpV0 (fieldNNN op)) ∧
  ∀ (nnn : Addr) (s : State),
    (Completes (.ldI nnn) s fun t =>
      t.index.toNat = nnn.toNat ∧ t.pc = nextPc s ∧ Frame { index := true } s t) ∧
    (Completes (.jpV0 nnn) s fun t =>
      t.pc.toNat = nnn.toNat + (s.reg 0x0#4).toNat ∧ Frame {} s t)

/-- R210, with the random byte as the model's free value and a counter that makes every draw a fresh one
(the model's choice, log entry 2): it holds whatever the byte is.
The spec's own decision: D14. -/
def Obligations.RandomByteMasked : Prop :=
  DecodesAs 0xF000#16 0xC000#16 (fun op => .rnd (fieldX op) (fieldKK op)) ∧
  ∀ (x : Reg) (kk : Byte) (s : State), Completes (.rnd x kk) s fun t =>
    t.reg x = Config.randomByte s.draws &&& kk ∧ t.draws = s.draws + 1 ∧ t.pc = nextPc s ∧
      Frame { regs := [x], draws := true } s t

/-! ### Family D -/

/-- R220 to R225: every grid pixel is XORed with the sprite bit that lands on it, none wraps; VF is 1
exactly when a bit landed on a set pixel; the origin is the OLD `V[x]`, `V[y]`; the range check comes first.
The spec's own decisions: D2, D3, D7, D19, D20. -/
def Obligations.DrawXorsSpriteAndDetectsCollision : Prop :=
  DecodesAs 0xF000#16 0xD000#16 (fun op => .drw (fieldX op) (fieldY op) (fieldN op)) ∧
  ∀ (x y : Reg) (n : Rows) (s : State),
    (n = 0#4 ∨ s.index.toNat + n.toNat ≤ 0x1000 → Completes (.drw x y n) s fun t =>
      (∀ c r, Grid.pixel t.disp c r = true ↔ Xor (Grid.pixel s.disp c r = true) (covers s x y n c r)) ∧
      ((∃ c r, covers s x y n c r ∧ Grid.pixel s.disp c r = true) → t.reg VF = 1#8) ∧
      ((¬ ∃ c r, covers s x y n c r ∧ Grid.pixel s.disp c r = true) → t.reg VF = 0#8) ∧
      t.drawFlag = true ∧ t.pc = nextPc s ∧
      Frame { regs := [VF], disp := true, drawFlag := true } s t) ∧
    (n ≠ 0#4 → 0x1000 < s.index.toNat + n.toNat →
      Traps (.drw x y n) s .dataOutOfRange (some (max s.index.toNat 0x1000)))

/-- Drawing the same sprite twice at the same place gives the display back (R220, R222; test vector W5),
and on a clear display the second draw collides exactly when the first one drew something.
The spec's own decision: D2. -/
def Obligations.DrawTwiceRestoresDisplay : Prop :=
  ∀ (x y : Reg) (n : Rows) (s t u : State), s.fault = none → t.fault = none → x ≠ VF → y ≠ VF →
    exec (.drw x y n) s = .next t → exec (.drw x y n) t = .next u →
    (∀ c r, Grid.pixel u.disp c r = Grid.pixel s.disp c r) ∧
    ((∀ c r, Grid.pixel s.disp c r = false) →
      (u.reg VF = 1#8 ↔ ∃ c r, Grid.pixel t.disp c r = true))

/-! ### Family E -/

/-- R240, R241, R242.
The spec's own decisions: D7, D10. -/
def Obligations.KeySkips : Prop :=
  DecodesAs 0xF0FF#16 0xE09E#16 (fun op => .skp (fieldX op)) ∧
  DecodesAs 0xF0FF#16 0xE0A1#16 (fun op => .sknp (fieldX op)) ∧
  ∀ (x : Reg) (s : State),
    (∀ h : (s.reg x).toNat < 16,
      (Completes (.skp x) s fun t => t.pc = skipPc (s.keys[(s.reg x).toNat]'h = true) s ∧ Frame {} s t) ∧
      (Completes (.sknp x) s fun t => t.pc = skipPc (s.keys[(s.reg x).toNat]'h = false) s ∧ Frame {} s t)) ∧
    (15 < (s.reg x).toNat →
      Traps (.skp x) s .keyIndexOutOfRange (some (s.reg x).toNat) ∧
      Traps (.sknp x) s .keyIndexOutOfRange (some (s.reg x).toNat))

/-! ### Family F -/

/-- R250, R251, R252. -/
def Obligations.TimerTransfers : Prop :=
  DecodesAs 0xF0FF#16 0xF007#16 (fun op => .readDT (fieldX op)) ∧
  DecodesAs 0xF0FF#16 0xF015#16 (fun op => .setDT (fieldX op)) ∧
  DecodesAs 0xF0FF#16 0xF018#16 (fun op => .setST (fieldX op)) ∧
  ∀ (x : Reg) (s : State),
    (Completes (.readDT x) s fun t => t.reg x = s.dt ∧ t.pc = nextPc s ∧ Frame { regs := [x] } s t) ∧
    (Completes (.setDT x) s fun t => t.dt = s.reg x ∧ t.pc = nextPc s ∧ Frame { dt := true } s t) ∧
    (Completes (.setST x) s fun t => t.st = s.reg x ∧ t.pc = nextPc s ∧ Frame { st := true } s t)

/-- R254, R255: the old VF is added when `x` = F; then VF is 1 exactly when the new `I` exceeds 1000.
The spec's own decisions: D7, D9, D18. -/
def Obligations.AddToIndexFlagsAboveThousand : Prop :=
  DecodesAs 0xF0FF#16 0xF01E#16 (fun op => .addI (fieldX op)) ∧
  ∀ (x : Reg) (s : State),
    (s.index.toNat + (s.reg x).toNat ≤ 0xFFFF → Completes (.addI x) s fun t =>
      t.index.toNat = s.index.toNat + (s.reg x).toNat ∧
      t.reg VF = (if s.index.toNat + (s.reg x).toNat > 1000 then 1#8 else 0#8) ∧
      t.pc = nextPc s ∧ Frame { regs := [VF], index := true } s t) ∧
    (0xFFFF < s.index.toNat + (s.reg x).toNat →
      Traps (.addI x) s .indexOverflow (some (s.index.toNat + (s.reg x).toNat)))

/-- R256, R257: the lowest pressed key; with none pressed, no change at all. -/
def Obligations.KeyWaitTakesLowestKey : Prop :=
  DecodesAs 0xF0FF#16 0xF00A#16 (fun op => .waitKey (fieldX op)) ∧
  ∀ (x : Reg) (s : State),
    (∀ k : Fin 16, s.keys[k.val]'k.isLt = true → (∀ j : Fin 16, j < k → s.keys[j.val]'j.isLt = false) →
      Completes (.waitKey x) s fun t =>
        (t.reg x).toNat = k.val ∧ t.pc = nextPc s ∧ Frame { regs := [x] } s t) ∧
    ((∀ k : Fin 16, s.keys[k.val]'k.isLt = false) → exec (.waitKey x) s = .next s)

/-- R258. -/
def Obligations.FontGlyphAddress : Prop :=
  DecodesAs 0xF0FF#16 0xF029#16 (fun op => .ldFont (fieldX op)) ∧
  ∀ (x : Reg) (s : State), Completes (.ldFont x) s fun t =>
    t.index.toNat = (s.reg x).toNat % 16 * 5 + 0x050 ∧ t.pc = nextPc s ∧ Frame { index := true } s t

/-- R260, R262: three digits, always three bytes, from `I` on; all or nothing.
The spec's own decisions: D3, D7, D17. -/
def Obligations.DecimalDigitsStored : Prop :=
  DecodesAs 0xF0FF#16 0xF033#16 (fun op => .storeBcd (fieldX op)) ∧
  ∀ (x : Reg) (s : State),
    (s.base + 2 ≤ 0xFFF → Completes (.storeBcd x) s fun t =>
      (t.byteAt s.base).toNat = (s.reg x).toNat / 100 ∧
      (t.byteAt (s.base + 1)).toNat = (s.reg x).toNat / 10 % 10 ∧
      (t.byteAt (s.base + 2)).toNat = (s.reg x).toNat % 10 ∧
      t.pc = nextPc s ∧ Frame { base := s.base, count := 3 } s t) ∧
    (0xFFF < s.base + 2 → Traps (.storeBcd x) s .dataOutOfRange (some (max s.base 0x1000)))

/-- R264: V0 to Vx at `I` to `I + x`, `I` unchanged; all or nothing.
The spec's own decisions: D3, D7, D16. -/
def Obligations.RegistersStored : Prop :=
  DecodesAs 0xF0FF#16 0xF055#16 (fun op => .storeRegs (fieldX op)) ∧
  ∀ (x : Reg) (s : State),
    (s.base + x.toNat ≤ 0xFFF → Completes (.storeRegs x) s fun t =>
      (∀ r : Reg, r.toNat ≤ x.toNat → t.byteAt (s.base + r.toNat) = s.reg r) ∧
      t.pc = nextPc s ∧ Frame { base := s.base, count := x.toNat + 1 } s t) ∧
    (0xFFF < s.base + x.toNat → Traps (.storeRegs x) s .dataOutOfRange (some (max s.base 0x1000)))

/-- R266: V0 to Vx from `I` to `I + x`, `I` unchanged; all or nothing.
The spec's own decisions: D3, D7, D16. -/
def Obligations.RegistersLoaded : Prop :=
  DecodesAs 0xF0FF#16 0xF065#16 (fun op => .loadRegs (fieldX op)) ∧
  ∀ (x : Reg) (s : State),
    (s.base + x.toNat ≤ 0xFFF → Completes (.loadRegs x) s fun t =>
      (∀ r : Reg, r.toNat ≤ x.toNat → t.reg r = s.byteAt (s.base + r.toNat)) ∧
      t.pc = nextPc s ∧ Frame { regs := blockRegs x } s t) ∧
    (0xFFF < s.base + x.toNat → Traps (.loadRegs x) s .dataOutOfRange (some (max s.base 0x1000)))

/-- R80, R362: code that Fx55 has just stored where `PC` now points is what the next STEP fetches.
The spec's own decisions: D16, D25. -/
def Obligations.StoredCodeIsFetched : Prop :=
  ∀ (x : Reg) (s t : State) (k : Nat), exec (.storeRegs x) s = .next t → s.base + x.toNat ≤ 0xFFF →
    k + 1 ≤ x.toNat → t.pc.toNat = s.base + k →
    t.fetchedWord = s.reg (BitVec.ofNat 4 k) ++ s.reg (BitVec.ofNat 4 (k + 1))

/-! ### Memory -/

/-- R62, R63: the access primitives; a read gives the last write, every other address reads as before.
The spec's own decisions: D3, D25. -/
def Obligations.MemoryPrimitives : Prop :=
  ∀ (s : State) (a : Nat) (b : Byte),
    (a ≤ 0xFFF → memRead a s = .ok (s.byteAt a) ∧
      ∃ t, memWrite a b s = .ok t ∧ memRead a t = .ok b ∧ (∀ k, k ≠ a → memRead k t = memRead k s) ∧
        { t with mem := s.mem } = s) ∧
    (0xFFF < a → memRead a s = .error { cause := .dataOutOfRange, info := some a } ∧
      memWrite a b s = .error { cause := .dataOutOfRange, info := some a })

/-! ### Faults -/

/-- R301, R303, R305, R306, for every STEP: it takes a fault exactly when the conditions of R301 say so, in
the priority of R303, and then the record holds exactly the cause, the address, the fetched word (none if
there was none) and the `info` of R301 (for DataOutOfRange the lowest bad address, for FetchOutOfRange the
first address beyond 0xFFF), every other change is discarded, and no STEP follows.
The spec's own decisions: D1, D2, D3, D4, D6, D7, D9, D10, D11, D20, D32. -/
def Obligations.FaultsArePrecise : Prop :=
  ∀ s t : State, s.fault = none → step s = .next t →
    t.fault = dueFault s ∧
    ∀ record, t.fault = some record →
      t = { s with fault := some record } ∧ record.pc = s.pc ∧
      record.opcode = (if s.pc.toNat ≤ 0xFFE then some s.fetchedWord else none) ∧
      infoFits record.cause record.info = true ∧ step t = .refused .halted

/-- R301: the eight codes; an instruction raises no fault but its own, and most raise none.
The spec's own decisions: D2, D3, D8, D9, D10, D11. -/
def Obligations.FaultCausesPerInstruction : Prop :=
  ([Fault.decodeError, .stackUnderflow, .fetchOutOfRange, .dataOutOfRange, .keyIndexOutOfRange,
      .indexOverflow, .stackOverflow, .aliasRefused].map Fault.code = [1, 2, 3, 4, 5, 6, 7, 8]) ∧
  ∀ (i : Instr) (s : State), ∃ t, exec i s = .next t ∧
    (t.fault = s.fault ∨
      ∃ record, t.fault = some record ∧ record.cause ∈ causesOf i ∧ infoFits record.cause record.info = true)

/-- R306, R308, R334, R335: once halted, no list of host operations without RESET ends the halt or changes
a register, `PC`, `I`, the stack or the display; and RESET ends it.
The spec's own decisions: D1, D7, D22, D27, D30. -/
def Obligations.HaltedUntilReset : Prop :=
  ∀ (ops : List HostOp) (s : State), s.fault ≠ none → HostOp.reset ∉ ops →
    (hostRun ops s).fault = s.fault ∧ (hostRun ops s).v = s.v ∧ (hostRun ops s).pc = s.pc ∧
    (hostRun ops s).index = s.index ∧ (hostRun ops s).stack = s.stack ∧ (hostRun ops s).disp = s.disp ∧
    step (hostRun ops s) = .refused .halted ∧ (hostOp .reset (hostRun ops s)).1.fault = none

/-! ### Invariants -/

/-- Every STEP keeps memory in its canonical form, the model's own way to hold memory (log entry 6). -/
def Obligations.StepKeepsMemoryCanonical : Prop :=
  ∀ s t : State, MemoryCanonical s → step s = .next t → MemoryCanonical t

/-- R28: `PC` never exceeds 0x10FE and so never wraps, given return addresses in range; every STEP keeps that.
The spec's own decisions: D4, D28. -/
def Obligations.StepKeepsPcInRange : Prop :=
  ∀ s t : State, PcInRange s → step s = .next t → PcInRange t

/-- R350, R351: the invariants hold after every RESET, whatever the state before and whatever the parameters,
and no fault record stands; and so at `State.reset`, the state after RESET with the default parameters (the
model's choice of them, log entry 4). The canonical form of memory among the invariants is the model's own
(log entry 6).
The spec's own decisions: D11, D12, D22. -/
def Obligations.ResetMeetsInvariants : Prop :=
  (Inv State.reset ∧ State.reset.fault = none) ∧
  ∀ s : State, Inv (hostReset s) ∧ (hostReset s).fault = none

/-- R5: whatever the host does, in whatever order, keeps the invariants of the core: memory in the model's own
canonical form (log entry 6), `PC` and the return addresses in the range of R28 (given by R27 and R91), the
stack within `STACK_DEPTH` (R30, R31), and a fault record that fits its cause (R301, R305, R306).
The spec's own decisions: D1, D4, D7, D11, D28, D30. -/
def Obligations.HostRunsKeepInvariants : Prop :=
  ∀ (ops : List HostOp) (s : State), Inv s → Inv (hostRun ops s)

/-! ### Which instruction touches what -/

/-- R23: no instruction writes a register that R23 does not list for it.
The spec's own decision: D2. -/
def Obligations.RegistersWrittenOnlyAsListed : Prop :=
  ∀ (i : Instr) (s t : State) (r : Reg), exec i s = .next t → writesReg i r = false → t.reg r = s.reg r

/-- R29, R33, R34, R35, R36, R37, R61: who writes `I`, the stack, the display, drawFlag, the timers and
memory; the core never writes the keys.
The spec's own decisions: D12, D16. -/
def Obligations.SpecialStateWrittenOnlyAsListed : Prop :=
  ∀ (i : Instr) (s t : State), exec i s = .next t →
    (t.index ≠ s.index → (∃ n, i = .ldI n) ∨ (∃ x, i = .addI x) ∨ (∃ x, i = .ldFont x)) ∧
    (t.stack ≠ s.stack → i = .ret ∨ ∃ n, i = .call n) ∧
    (t.disp ≠ s.disp → i = .cls ∨ ∃ x y n, i = .drw x y n) ∧
    (t.drawFlag ≠ s.drawFlag → t.drawFlag = true ∧ (i = .cls ∨ ∃ x y n, i = .drw x y n)) ∧
    (t.dt ≠ s.dt → ∃ x, i = .setDT x) ∧ (t.st ≠ s.st → ∃ x, i = .setST x) ∧
    (∀ a, t.byteAt a ≠ s.byteAt a → (∃ x, i = .storeBcd x) ∨ (∃ x, i = .storeRegs x)) ∧
    t.keys = s.keys

/-- R27: how each instruction that does not fault leaves `PC`; a skip on its condition.
The spec's own decisions: D21, D28. -/
def Obligations.PcAfterInstruction : Prop :=
  ∀ (i : Instr) (s t : State), exec i s = .next t → s.fault = none → t.fault = none →
    match i with
    | .jp nnn | .call nnn => t.pc.toNat = nnn.toNat
    | .jpV0 nnn => t.pc.toNat = nnn.toNat + (s.reg 0x0#4).toNat
    | .ret => s.stack = t.pc :: t.stack
    | .seImm x kk => t.pc = skipPc (s.reg x = kk) s
    | .sneImm x kk => t.pc = skipPc (s.reg x ≠ kk) s
    | .seReg x y => t.pc = skipPc (s.reg x = s.reg y) s
    | .sneReg x y => t.pc = skipPc (s.reg x ≠ s.reg y) s
    | .skp x => ∃ h : (s.reg x).toNat < 16, t.pc = skipPc (s.keys[(s.reg x).toNat]'h = true) s
    | .sknp x => ∃ h : (s.reg x).toNat < 16, t.pc = skipPc (s.keys[(s.reg x).toNat]'h = false) s
    | .waitKey _ => t.pc = (if ∃ k : Fin 16, s.keys[k.val]'k.isLt = true then s.pc + 2#16 else s.pc)
    | _ => t.pc = s.pc + 2#16

/-- R22: a register that R22 does not list for an instruction does not influence it: with another value in
that register the instruction does the same, and the results differ in that register at most.
The spec's own decision: D2. -/
def Obligations.UnlistedRegisterIsNotRead : Prop :=
  ∀ (i : Instr) (s t : State) (r : Reg) (b : Byte), readsReg i r = false → exec i s = .next t →
    ∃ u, exec i (s.setReg r b) = .next u ∧ AgreeButReg r t u

/-- R36, R37, R252: no STEP reads `ST` or `drawFlag`: with another value in them the STEP does the same, and
the results differ in them at most. -/
def Obligations.SoundTimerAndDrawFlagAreNotRead : Prop :=
  ∀ (s t : State) (b : Byte) (d : Bool), step s = .next t →
    ∃ u, step { s with st := b, drawFlag := d } = .next u ∧
      { u with st := t.st, drawFlag := t.drawFlag } = t

/-! ### The ends of a run -/

/-- R375: at an idle end every later STEP changes nothing.
The spec's own decision: D27. -/
def Obligations.IdleEndIsFinal : Prop :=
  ∀ (s : State) (n : Nat), IdleEnd s → step s = .next s ∧ hostRun (List.replicate n .step) s = s

/-- R257: with no key pressed, every STEP of a waiting Fx0A changes nothing; a key press ends the wait.
The spec's own decisions: D21, D31. -/
def Obligations.KeyWaitIsRepeatedExecution : Prop :=
  ∀ (s : State) (n : Nat), WaitingForKey s →
    step s = .next s ∧ hostRun (List.replicate n .step) s = s ∧
    ∀ k : Word, k ≠ 0#16 → ∃ t, step (hostSetKeys k s) = .next t ∧ t.pc = s.pc + 2#16

/-! ### The host's operations -/

/-- R350, R351, R41: RESET at any time, halted or not; `State.reset` is such a state. The font is the five
bytes of glyph 0 and then the 75 bytes of the parameter.
The spec's own decisions: D12, D15, D22. -/
def Obligations.ResetState : Prop :=
  (hostReset State.reset = State.reset) ∧
  ∀ s : State,
    (hostOp .reset s).1.pc = 0x200#16 ∧ (∀ r, (hostOp .reset s).1.reg r = 0#8) ∧
    (hostOp .reset s).1.index = 0#16 ∧ (hostOp .reset s).1.stack = [] ∧
    (hostOp .reset s).1.dt = 0#8 ∧ (hostOp .reset s).1.st = 0#8 ∧
    (∀ c r, Grid.pixel (hostOp .reset s).1.disp c r = false) ∧
    (∀ k : Fin 16, (hostOp .reset s).1.keys[k.val]'k.isLt = false) ∧
    (hostOp .reset s).1.drawFlag = false ∧ (hostOp .reset s).1.fault = none ∧
    (∀ a, a < 0x1000 → (hostOp .reset s).1.byteAt a =
      if 0x050 ≤ a ∧ a < 0x050 + 80 then fontByte s.params (a - 0x050) else 0#8) ∧
    (List.range 5).map (fontByte s.params) = [0xF0#8, 0x90#8, 0x90#8, 0x90#8, 0xF0#8] ∧
    (∀ (j : Nat) (h : j < 75), fontByte s.params (5 + j) = s.params.glyphs[j]'h)

/-- R354: "A STEP before any LOAD fetches 0x0000 at 0x200 and raises `DecodeError`".
The spec's own decisions: D6, D7, D12, D22. -/
def Obligations.StepBeforeLoadIsDecodeError : Prop :=
  ∀ s : State, step (hostReset s) = .next { hostReset s with
    fault := some { cause := .decodeError, pc := 0x200#16, opcode := some 0x0000#16, info := none } }

/-- R352: a program of at most 3584 bytes is copied to 0x200 and nothing else changes; a longer one is
LoadError and nothing changes. -/
def Obligations.LoadCopiesProgramOrFails : Prop :=
  ∀ (bytes : List Byte) (s : State),
    (bytes.length ≤ 3584 → ∃ t, hostOp (.load bytes) s = (t, .ok) ∧
      (∀ a, t.byteAt a =
        if 0x200 ≤ a ∧ a < 0x200 + bytes.length then bytes.getD (a - 0x200) 0#8 else s.byteAt a) ∧
      { t with mem := s.mem } = s) ∧
    (3584 < bytes.length → hostOp (.load bytes) s = (s, .loadError))

/-- R320: both timers go down by one, staying at 0, whatever else the core is doing; nothing else changes.
The spec's own decision: D13. -/
def Obligations.TickCountsDown : Prop :=
  ∀ s : State, ∃ t, hostOp .tick s = (t, .nothing) ∧ t.dt.toNat = s.dt.toNat - 1 ∧
    t.st.toNat = s.st.toNat - 1 ∧ { t with dt := s.dt, st := s.st } = s

/-- R332, R333, R322: SETKEYS, READ_DISPLAY (row-major), READ_FLAGS (the sound bit is `ST != 0`), CLEARDRAW.
The spec's own decisions: D1, D30, D31. -/
def Obligations.KeysDisplayAndFlags : Prop :=
  ∀ (s : State) (k : Word),
    (∃ t, hostOp (.setKeys k) s = (t, .nothing) ∧
      (∀ j : Fin 16, t.keys[j.val]'j.isLt = k.getLsbD j.val) ∧ { t with keys := s.keys } = s) ∧
    (∃ pixels : List Bool, hostOp .readDisplay s = (s, .display pixels) ∧ pixels.length = 2048 ∧
      ∀ c r, c < 64 → r < 32 → pixels.getD (r * 64 + c) false = Grid.pixel s.disp c r) ∧
    (∃ sound : Bool, hostOp .readFlags s = (s, .flags s.drawFlag sound s.fault) ∧
      (sound = true ↔ s.st.toNat ≠ 0)) ∧
    (hostOp .clearDraw s = ({ s with drawFlag := false }, .nothing))

/-- R330, R334: what the host gets from a STEP request: refused while halted, and nothing changes; else the
core takes its STEP, and the host gets the fault record if the STEP took a fault and nothing if it did not.
The spec's own decisions: D1, D27, D30. -/
def Obligations.StepRequestReplies : Prop :=
  ∀ s : State,
    (s.fault ≠ none → hostOp .step s = (s, .refused)) ∧
    (s.fault = none → ∃ t, step s = .next t ∧
      (t.fault = none → hostOp .step s = (t, .nothing)) ∧
      (∀ record, t.fault = some record → hostOp .step s = (t, .faulted record)))
end

