-- ==== Sys2Proof/Laws/Decode.lean ====
section
/-! SUPPORT. The decoder and the encoder: the rows are disjoint, a word that a row accepts decodes to it,
the fields of a packed word are the fields packed. -/

namespace Sys2Proof

/-- Some bit that both rows fix differs: no word matches both. -/
def Row.disjoint (r q : Row) : Bool := (r.mask &&& q.mask) &&& (r.bits ^^^ q.bits) != 0#16

/-- "The rows of rule R110 are disjoint" (R104). -/
theorem rows_pairwise_disjoint : rows.Pairwise fun r q => r.disjoint q = true := by decide

theorem Row.not_accepts_of_disjoint {r q : Row} {op : Word} (h : r.disjoint q = true)
    (hr : r.accepts op = true) : q.accepts op = false := by
  by_contra hq
  simp only [Row.accepts, Bool.not_eq_false, beq_iff_eq, Row.disjoint, bne_iff_ne] at *
  apply h
  rw [← hr, ← hq]
  ext k hk
  simp only [BitVec.getElem_and, BitVec.getElem_xor, BitVec.getElem_zero]
  cases op[k] <;> cases r.mask[k] <;> cases q.mask[k] <;> rfl

theorem find_row_of_pairwise {l : List Row} (hl : l.Pairwise fun r q => r.disjoint q = true) {r : Row}
    (hr : r ∈ l) {op : Word} (h : r.accepts op = true) : l.find? (fun q => q.accepts op) = some r := by
  induction l with
  | nil => cases hr
  | cons q l ih =>
    rw [List.pairwise_cons] at hl
    by_cases hq : q.accepts op = true
    · rcases List.mem_cons.1 hr with rfl | hmem
      · simp [h]
      · have := Row.not_accepts_of_disjoint (hl.1 r hmem) hq
        simp [h] at this
    · rcases List.mem_cons.1 hr with rfl | hmem
      · exact absurd h hq
      · simpa [List.find?_cons, hq] using ih hl.2 hmem

/-- A word that a row of R110 accepts decodes to that row's instruction. -/
theorem decode_of_row {r : Row} (hr : r ∈ rows) {op : Word} (h : op &&& r.mask = r.bits) :
    decode op = .ok (r.build op) := by
  rw [decode, find_row_of_pairwise rows_pairwise_disjoint hr (by simpa [Row.accepts] using h)]

/-- The same by the row's place in the table, 0 to 33. -/
theorem decode_of_row_at (k : Nat) (hk : k < rows.length) (op : Word)
    (h : op &&& (rows[k]'hk).mask = (rows[k]'hk).bits) : decode op = .ok ((rows[k]'hk).build op) :=
  decode_of_row (List.getElem_mem hk) h

/-- Everything `decode` can answer: some row's instruction, or a rejection when no row accepts. -/
theorem decode_cases (op : Word) :
    (∃ r ∈ rows, op &&& r.mask = r.bits ∧ decode op = .ok (r.build op)) ∨
    ((∀ r ∈ rows, op &&& r.mask ≠ r.bits) ∧ decode op = .error (.illegal op)) := by
  cases h : rows.find? (fun r => r.accepts op) with
  | some r =>
    refine .inl ⟨r, List.mem_of_find?_eq_some h, ?_, by rw [decode, h]⟩
    simpa [Row.accepts] using List.find?_some h
  | none =>
    refine .inr ⟨fun r hr => ?_, by rw [decode, h]⟩
    simpa [Row.accepts] using List.find?_eq_none.1 h r hr

/-! ### Fields of a packed word -/

@[simp] theorem fieldX_packXKK (f : BitVec 4) (x : Reg) (kk : Byte) : fieldX (packXKK f x kk) = x := by
  ext k hk
  simp only [fieldX, packXKK, BitVec.getElem_extractLsb', BitVec.getLsbD_append]
  rw [if_neg (by omega), Nat.add_sub_cancel_left, if_pos (by omega)]
  simp [BitVec.getLsbD_eq_getElem hk]

@[simp] theorem fieldKK_packXKK (f : BitVec 4) (x : Reg) (kk : Byte) : fieldKK (packXKK f x kk) = kk := by
  ext k hk
  simp only [fieldKK, packXKK, BitVec.getElem_extractLsb', BitVec.getLsbD_append, Nat.zero_add]
  rw [if_pos (by omega)]
  simp [BitVec.getLsbD_eq_getElem hk]

@[simp] theorem fieldX_packXYN (f : BitVec 4) (x y : Reg) (n : BitVec 4) : fieldX (packXYN f x y n) = x := by
  ext k hk
  simp only [fieldX, packXYN, BitVec.getElem_extractLsb', BitVec.getLsbD_append]
  rw [if_neg (by omega), if_neg (by omega), if_pos (by omega)]
  rw [show 8 + k - 4 - 4 = k by omega]
  simp [BitVec.getLsbD_eq_getElem hk]

@[simp] theorem fieldY_packXYN (f : BitVec 4) (x y : Reg) (n : BitVec 4) : fieldY (packXYN f x y n) = y := by
  ext k hk
  simp only [fieldY, packXYN, BitVec.getElem_extractLsb', BitVec.getLsbD_append]
  rw [if_neg (by omega), if_pos (by omega), show 4 + k - 4 = k by omega]
  simp [BitVec.getLsbD_eq_getElem hk]

@[simp] theorem fieldN_packXYN (f : BitVec 4) (x y : Reg) (n : BitVec 4) : fieldN (packXYN f x y n) = n := by
  ext k hk
  simp only [fieldN, packXYN, BitVec.getElem_extractLsb', BitVec.getLsbD_append, Nat.zero_add]
  rw [if_pos (by omega)]
  simp [BitVec.getLsbD_eq_getElem hk]

@[simp] theorem fieldNNN_packNNN (f : BitVec 4) (nnn : Addr) : fieldNNN (packNNN f nnn) = nnn := by
  ext k hk
  simp only [fieldNNN, packNNN, BitVec.getElem_extractLsb', BitVec.getLsbD_append, Nat.zero_add]
  rw [if_pos (by omega)]
  simp [BitVec.getLsbD_eq_getElem hk]

/-! ### A packed word under the masks of R110 -/

theorem and_nibble (f : BitVec 4) : f &&& 15#4 = f := BitVec.and_allOnes

theorem and_byte (b : Byte) : b &&& 255#8 = b := BitVec.and_allOnes

theorem packXKK_and_F000 (f : BitVec 4) (x : Reg) (kk : Byte) :
    packXKK f x kk &&& 0xF000#16 = packXKK f 0#4 0#8 := by
  rw [show (0xF000#16 : Word) = packXKK 0xF#4 0#4 0#8 by rfl]
  unfold packXKK
  rw [BitVec.and_append, BitVec.and_append]
  simp [and_nibble]

theorem packXKK_and_F0FF (f : BitVec 4) (x : Reg) (kk : Byte) :
    packXKK f x kk &&& 0xF0FF#16 = packXKK f 0#4 kk := by
  rw [show (0xF0FF#16 : Word) = packXKK 0xF#4 0#4 0xFF#8 by rfl]
  unfold packXKK
  rw [BitVec.and_append, BitVec.and_append]
  simp [and_nibble, and_byte]

theorem packXYN_and_F00F (f : BitVec 4) (x y : Reg) (n : BitVec 4) :
    packXYN f x y n &&& 0xF00F#16 = packXYN f 0#4 0#4 n := by
  rw [show (0xF00F#16 : Word) = packXYN 0xF#4 0#4 0#4 0xF#4 by rfl]
  unfold packXYN
  rw [BitVec.and_append, BitVec.and_append, BitVec.and_append]
  simp [and_nibble]

theorem packXYN_and_F000 (f : BitVec 4) (x y : Reg) (n : BitVec 4) :
    packXYN f x y n &&& 0xF000#16 = packXYN f 0#4 0#4 0#4 := by
  rw [show (0xF000#16 : Word) = packXYN 0xF#4 0#4 0#4 0#4 by rfl]
  unfold packXYN
  rw [BitVec.and_append, BitVec.and_append, BitVec.and_append]
  simp [and_nibble]

theorem packNNN_and_F000 (f : BitVec 4) (nnn : Addr) : packNNN f nnn &&& 0xF000#16 = packNNN f 0#12 := by
  rw [show (0xF000#16 : Word) = packNNN 0xF#4 0#12 by rfl]
  unfold packNNN
  rw [BitVec.and_append]
  simp [and_nibble]

/-! ### A word from its fields -/

/-- The family field, bits 15..12 (R101). -/
def fieldFamily (op : Word) : BitVec 4 := op.extractLsb' 12 4

theorem packNNN_fields (op : Word) : packNNN (fieldFamily op) (fieldNNN op) = op := by
  apply BitVec.eq_of_getLsbD_eq
  intro k hk
  simp only [packNNN, fieldFamily, fieldNNN, BitVec.getLsbD_append, BitVec.getLsbD_extractLsb']
  by_cases h : k < 12
  · simp [h]
  · simp [h, show k - 12 < 4 by omega, show 12 + (k - 12) = k by omega]

theorem packXKK_fields (op : Word) : packXKK (fieldFamily op) (fieldX op) (fieldKK op) = op := by
  apply BitVec.eq_of_getLsbD_eq
  intro k hk
  simp only [packXKK, fieldFamily, fieldX, fieldKK, BitVec.getLsbD_append, BitVec.getLsbD_extractLsb']
  by_cases h : k < 8
  · simp [h]
  · by_cases h2 : k < 12
    · simp [h, show k - 8 < 4 by omega, show 8 + (k - 8) = k by omega]
    · simp [h, show ¬ (k - 8 < 4) by omega, show k - 8 - 4 < 4 by omega,
        show 12 + (k - 8 - 4) = k by omega]

theorem packXYN_fields (op : Word) :
    packXYN (fieldFamily op) (fieldX op) (fieldY op) (fieldN op) = op := by
  apply BitVec.eq_of_getLsbD_eq
  intro k hk
  simp only [packXYN, fieldFamily, fieldX, fieldY, fieldN, BitVec.getLsbD_append, BitVec.getLsbD_extractLsb']
  by_cases h : k < 4
  · simp [h]
  · by_cases h1 : k < 8
    · simp [h, show k - 4 < 4 by omega, show 4 + (k - 4) = k by omega]
    · by_cases h2 : k < 12
      · simp [h, show ¬ (k - 4 < 4) by omega, show k - 4 - 4 < 4 by omega,
          show 8 + (k - 4 - 4) = k by omega]
      · simp [h, show ¬ (k - 4 < 4) by omega, show ¬ (k - 4 - 4 < 4) by omega,
          show k - 4 - 4 - 4 < 4 by omega, show 12 + (k - 4 - 4 - 4) = k by omega]

@[simp] theorem fieldFamily_packXKK (f : BitVec 4) (x : Reg) (kk : Byte) : fieldFamily (packXKK f x kk) = f := by
  apply BitVec.eq_of_getLsbD_eq
  intro k hk
  simp only [fieldFamily, packXKK, BitVec.getLsbD_append, BitVec.getLsbD_extractLsb', hk]
  simp [show ¬ (12 + k < 8) by omega, show ¬ (12 + k - 8 < 4) by omega, show 12 + k - 8 - 4 = k by omega]

@[simp] theorem fieldFamily_packXYN (f : BitVec 4) (x y : Reg) (n : BitVec 4) :
    fieldFamily (packXYN f x y n) = f := by
  apply BitVec.eq_of_getLsbD_eq
  intro k hk
  simp only [fieldFamily, packXYN, BitVec.getLsbD_append, BitVec.getLsbD_extractLsb', hk]
  simp [show ¬ (12 + k < 4) by omega, show ¬ (12 + k - 4 < 4) by omega,
    show ¬ (12 + k - 4 - 4 < 4) by omega, show 12 + k - 4 - 4 - 4 = k by omega]

@[simp] theorem fieldFamily_packNNN (f : BitVec 4) (nnn : Addr) : fieldFamily (packNNN f nnn) = f := by
  apply BitVec.eq_of_getLsbD_eq
  intro k hk
  simp only [fieldFamily, packNNN, BitVec.getLsbD_append, BitVec.getLsbD_extractLsb', hk]
  simp

/-! A word that matches a row is its fields packed with the row's fixed bits. -/

theorem packXKK_of_mask {op : Word} {f : BitVec 4} (h : op &&& 0xF000#16 = packXKK f 0#4 0#8) :
    packXKK f (fieldX op) (fieldKK op) = op := by
  have hop := packXKK_fields op
  rw [← hop, packXKK_and_F000] at h
  rw [show f = fieldFamily op by simpa using (congrArg fieldFamily h).symm]
  exact hop

theorem packNNN_of_mask {op : Word} {f : BitVec 4} (h : op &&& 0xF000#16 = packNNN f 0#12) :
    packNNN f (fieldNNN op) = op := by
  have hop := packNNN_fields op
  rw [← hop, packNNN_and_F000] at h
  rw [show f = fieldFamily op by simpa using (congrArg fieldFamily h).symm]
  exact hop

theorem packXYN_of_mask {op : Word} {f : BitVec 4} (h : op &&& 0xF000#16 = packXYN f 0#4 0#4 0#4) :
    packXYN f (fieldX op) (fieldY op) (fieldN op) = op := by
  have hop := packXYN_fields op
  rw [← hop, packXYN_and_F000] at h
  rw [show f = fieldFamily op by simpa using (congrArg fieldFamily h).symm]
  exact hop

theorem packXKK_of_mask_low {op : Word} {f : BitVec 4} {kk : Byte} (h : op &&& 0xF0FF#16 = packXKK f 0#4 kk) :
    packXKK f (fieldX op) kk = op := by
  have hop := packXKK_fields op
  rw [← hop, packXKK_and_F0FF] at h
  rw [show f = fieldFamily op by simpa using (congrArg fieldFamily h).symm,
    show kk = fieldKK op by simpa using (congrArg fieldKK h).symm]
  exact hop

theorem packXYN_of_mask_low {op : Word} {f n : BitVec 4} (h : op &&& 0xF00F#16 = packXYN f 0#4 0#4 n) :
    packXYN f (fieldX op) (fieldY op) n = op := by
  have hop := packXYN_fields op
  rw [← hop, packXYN_and_F00F] at h
  rw [show f = fieldFamily op by simpa using (congrArg fieldFamily h).symm,
    show n = fieldN op by simpa using (congrArg fieldN h).symm]
  exact hop

/-- The two bytes of a word make the word again (R66). -/
theorem wordOfBytes_bytesOfWord (op : Word) : wordOfBytes (op.extractLsb' 8 8) (op.extractLsb' 0 8) = op := by
  apply BitVec.eq_of_getLsbD_eq
  intro k hk
  simp only [wordOfBytes, BitVec.getLsbD_append, BitVec.getLsbD_extractLsb']
  by_cases h : k < 8
  · simp [h]
  · simp [h, show k - 8 < 8 by omega, show 8 + (k - 8) = k by omega]

end Sys2Proof
end

