-- ==== Sys2Proof/Laws/State.lean ====
section
/-! SUPPORT. The small lemmas of State: one per field per update, and reading a register after each update. -/

namespace Sys2Proof.Machine

/-! ### `setReg` -/

@[simp] theorem State.setReg_pc (s : State) (x : Reg) (b : Byte) : (s.setReg x b).pc = s.pc := rfl
@[simp] theorem State.setReg_index (s : State) (x : Reg) (b : Byte) : (s.setReg x b).index = s.index := rfl
@[simp] theorem State.setReg_stack (s : State) (x : Reg) (b : Byte) : (s.setReg x b).stack = s.stack := rfl
@[simp] theorem State.setReg_mem (s : State) (x : Reg) (b : Byte) : (s.setReg x b).mem = s.mem := rfl
@[simp] theorem State.setReg_disp (s : State) (x : Reg) (b : Byte) : (s.setReg x b).disp = s.disp := rfl
@[simp] theorem State.setReg_keys (s : State) (x : Reg) (b : Byte) : (s.setReg x b).keys = s.keys := rfl
@[simp] theorem State.setReg_dt (s : State) (x : Reg) (b : Byte) : (s.setReg x b).dt = s.dt := rfl
@[simp] theorem State.setReg_st (s : State) (x : Reg) (b : Byte) : (s.setReg x b).st = s.st := rfl
@[simp] theorem State.setReg_drawFlag (s : State) (x : Reg) (b : Byte) : (s.setReg x b).drawFlag = s.drawFlag := rfl
@[simp] theorem State.setReg_fault (s : State) (x : Reg) (b : Byte) : (s.setReg x b).fault = s.fault := rfl
@[simp] theorem State.setReg_draws (s : State) (x : Reg) (b : Byte) : (s.setReg x b).draws = s.draws := rfl
@[simp] theorem State.setReg_params (s : State) (x : Reg) (b : Byte) : (s.setReg x b).params = s.params := rfl
@[simp] theorem State.setReg_byteAt (s : State) (x : Reg) (b : Byte) (k : Nat) : (s.setReg x b).byteAt k = s.byteAt k := rfl

/-! ### `advance` -/

@[simp] theorem State.advance_v (s : State) : (s.advance).v = s.v := rfl
@[simp] theorem State.advance_index (s : State) : (s.advance).index = s.index := rfl
@[simp] theorem State.advance_stack (s : State) : (s.advance).stack = s.stack := rfl
@[simp] theorem State.advance_mem (s : State) : (s.advance).mem = s.mem := rfl
@[simp] theorem State.advance_disp (s : State) : (s.advance).disp = s.disp := rfl
@[simp] theorem State.advance_keys (s : State) : (s.advance).keys = s.keys := rfl
@[simp] theorem State.advance_dt (s : State) : (s.advance).dt = s.dt := rfl
@[simp] theorem State.advance_st (s : State) : (s.advance).st = s.st := rfl
@[simp] theorem State.advance_drawFlag (s : State) : (s.advance).drawFlag = s.drawFlag := rfl
@[simp] theorem State.advance_fault (s : State) : (s.advance).fault = s.fault := rfl
@[simp] theorem State.advance_draws (s : State) : (s.advance).draws = s.draws := rfl
@[simp] theorem State.advance_params (s : State) : (s.advance).params = s.params := rfl
@[simp] theorem State.advance_reg (s : State) (r : Reg) : (s.advance).reg r = s.reg r := rfl
@[simp] theorem State.advance_byteAt (s : State) (k : Nat) : (s.advance).byteAt k = s.byteAt k := rfl
@[simp] theorem State.advance_pc (s : State) : s.advance.pc = s.pc + 2#16 := rfl

/-! ### `jump` -/

@[simp] theorem State.jump_v (s : State) (a : Word) : (s.jump a).v = s.v := rfl
@[simp] theorem State.jump_index (s : State) (a : Word) : (s.jump a).index = s.index := rfl
@[simp] theorem State.jump_stack (s : State) (a : Word) : (s.jump a).stack = s.stack := rfl
@[simp] theorem State.jump_mem (s : State) (a : Word) : (s.jump a).mem = s.mem := rfl
@[simp] theorem State.jump_disp (s : State) (a : Word) : (s.jump a).disp = s.disp := rfl
@[simp] theorem State.jump_keys (s : State) (a : Word) : (s.jump a).keys = s.keys := rfl
@[simp] theorem State.jump_dt (s : State) (a : Word) : (s.jump a).dt = s.dt := rfl
@[simp] theorem State.jump_st (s : State) (a : Word) : (s.jump a).st = s.st := rfl
@[simp] theorem State.jump_drawFlag (s : State) (a : Word) : (s.jump a).drawFlag = s.drawFlag := rfl
@[simp] theorem State.jump_fault (s : State) (a : Word) : (s.jump a).fault = s.fault := rfl
@[simp] theorem State.jump_draws (s : State) (a : Word) : (s.jump a).draws = s.draws := rfl
@[simp] theorem State.jump_params (s : State) (a : Word) : (s.jump a).params = s.params := rfl
@[simp] theorem State.jump_reg (s : State) (a : Word) (r : Reg) : (s.jump a).reg r = s.reg r := rfl
@[simp] theorem State.jump_byteAt (s : State) (a : Word) (k : Nat) : (s.jump a).byteAt k = s.byteAt k := rfl
@[simp] theorem State.jump_pc (s : State) (a : Word) : (s.jump a).pc = a := rfl

/-! ### `setByte` -/

@[simp] theorem State.setByte_v (s : State) (a : Nat) (b : Byte) : (s.setByte a b).v = s.v := by
  unfold State.setByte; split <;> rfl
@[simp] theorem State.setByte_pc (s : State) (a : Nat) (b : Byte) : (s.setByte a b).pc = s.pc := by
  unfold State.setByte; split <;> rfl
@[simp] theorem State.setByte_index (s : State) (a : Nat) (b : Byte) : (s.setByte a b).index = s.index := by
  unfold State.setByte; split <;> rfl
@[simp] theorem State.setByte_stack (s : State) (a : Nat) (b : Byte) : (s.setByte a b).stack = s.stack := by
  unfold State.setByte; split <;> rfl
@[simp] theorem State.setByte_disp (s : State) (a : Nat) (b : Byte) : (s.setByte a b).disp = s.disp := by
  unfold State.setByte; split <;> rfl
@[simp] theorem State.setByte_keys (s : State) (a : Nat) (b : Byte) : (s.setByte a b).keys = s.keys := by
  unfold State.setByte; split <;> rfl
@[simp] theorem State.setByte_dt (s : State) (a : Nat) (b : Byte) : (s.setByte a b).dt = s.dt := by
  unfold State.setByte; split <;> rfl
@[simp] theorem State.setByte_st (s : State) (a : Nat) (b : Byte) : (s.setByte a b).st = s.st := by
  unfold State.setByte; split <;> rfl
@[simp] theorem State.setByte_drawFlag (s : State) (a : Nat) (b : Byte) : (s.setByte a b).drawFlag = s.drawFlag := by
  unfold State.setByte; split <;> rfl
@[simp] theorem State.setByte_fault (s : State) (a : Nat) (b : Byte) : (s.setByte a b).fault = s.fault := by
  unfold State.setByte; split <;> rfl
@[simp] theorem State.setByte_draws (s : State) (a : Nat) (b : Byte) : (s.setByte a b).draws = s.draws := by
  unfold State.setByte; split <;> rfl
@[simp] theorem State.setByte_params (s : State) (a : Nat) (b : Byte) : (s.setByte a b).params = s.params := by
  unfold State.setByte; split <;> rfl
@[simp] theorem State.setByte_reg (s : State) (a : Nat) (b : Byte) (r : Reg) : (s.setByte a b).reg r = s.reg r := by
  unfold State.setByte; split <;> rfl

/-! ### `setBytes` -/

@[simp] theorem State.setBytes_v (s : State) (a : Nat) (bs : List Byte) : (s.setBytes a bs).v = s.v := by
  induction bs generalizing s a with
  | nil => rfl
  | cons b bs ih => simp [State.setBytes, ih]
@[simp] theorem State.setBytes_pc (s : State) (a : Nat) (bs : List Byte) : (s.setBytes a bs).pc = s.pc := by
  induction bs generalizing s a with
  | nil => rfl
  | cons b bs ih => simp [State.setBytes, ih]
@[simp] theorem State.setBytes_index (s : State) (a : Nat) (bs : List Byte) : (s.setBytes a bs).index = s.index := by
  induction bs generalizing s a with
  | nil => rfl
  | cons b bs ih => simp [State.setBytes, ih]
@[simp] theorem State.setBytes_stack (s : State) (a : Nat) (bs : List Byte) : (s.setBytes a bs).stack = s.stack := by
  induction bs generalizing s a with
  | nil => rfl
  | cons b bs ih => simp [State.setBytes, ih]
@[simp] theorem State.setBytes_disp (s : State) (a : Nat) (bs : List Byte) : (s.setBytes a bs).disp = s.disp := by
  induction bs generalizing s a with
  | nil => rfl
  | cons b bs ih => simp [State.setBytes, ih]
@[simp] theorem State.setBytes_keys (s : State) (a : Nat) (bs : List Byte) : (s.setBytes a bs).keys = s.keys := by
  induction bs generalizing s a with
  | nil => rfl
  | cons b bs ih => simp [State.setBytes, ih]
@[simp] theorem State.setBytes_dt (s : State) (a : Nat) (bs : List Byte) : (s.setBytes a bs).dt = s.dt := by
  induction bs generalizing s a with
  | nil => rfl
  | cons b bs ih => simp [State.setBytes, ih]
@[simp] theorem State.setBytes_st (s : State) (a : Nat) (bs : List Byte) : (s.setBytes a bs).st = s.st := by
  induction bs generalizing s a with
  | nil => rfl
  | cons b bs ih => simp [State.setBytes, ih]
@[simp] theorem State.setBytes_drawFlag (s : State) (a : Nat) (bs : List Byte) : (s.setBytes a bs).drawFlag = s.drawFlag := by
  induction bs generalizing s a with
  | nil => rfl
  | cons b bs ih => simp [State.setBytes, ih]
@[simp] theorem State.setBytes_fault (s : State) (a : Nat) (bs : List Byte) : (s.setBytes a bs).fault = s.fault := by
  induction bs generalizing s a with
  | nil => rfl
  | cons b bs ih => simp [State.setBytes, ih]
@[simp] theorem State.setBytes_draws (s : State) (a : Nat) (bs : List Byte) : (s.setBytes a bs).draws = s.draws := by
  induction bs generalizing s a with
  | nil => rfl
  | cons b bs ih => simp [State.setBytes, ih]
@[simp] theorem State.setBytes_params (s : State) (a : Nat) (bs : List Byte) : (s.setBytes a bs).params = s.params := by
  induction bs generalizing s a with
  | nil => rfl
  | cons b bs ih => simp [State.setBytes, ih]
@[simp] theorem State.setBytes_reg (s : State) (a : Nat) (bs : List Byte) (r : Reg) : (s.setBytes a bs).reg r = s.reg r := by
  simp [State.reg]

/-! ### `setRegs` -/

@[simp] theorem State.setRegs_pc (s : State) (k : Nat) (bs : List Byte) : (s.setRegs k bs).pc = s.pc := by
  induction bs generalizing s k with
  | nil => rfl
  | cons b bs ih => simp [State.setRegs, ih]
@[simp] theorem State.setRegs_index (s : State) (k : Nat) (bs : List Byte) : (s.setRegs k bs).index = s.index := by
  induction bs generalizing s k with
  | nil => rfl
  | cons b bs ih => simp [State.setRegs, ih]
@[simp] theorem State.setRegs_stack (s : State) (k : Nat) (bs : List Byte) : (s.setRegs k bs).stack = s.stack := by
  induction bs generalizing s k with
  | nil => rfl
  | cons b bs ih => simp [State.setRegs, ih]
@[simp] theorem State.setRegs_mem (s : State) (k : Nat) (bs : List Byte) : (s.setRegs k bs).mem = s.mem := by
  induction bs generalizing s k with
  | nil => rfl
  | cons b bs ih => simp [State.setRegs, ih]
@[simp] theorem State.setRegs_disp (s : State) (k : Nat) (bs : List Byte) : (s.setRegs k bs).disp = s.disp := by
  induction bs generalizing s k with
  | nil => rfl
  | cons b bs ih => simp [State.setRegs, ih]
@[simp] theorem State.setRegs_keys (s : State) (k : Nat) (bs : List Byte) : (s.setRegs k bs).keys = s.keys := by
  induction bs generalizing s k with
  | nil => rfl
  | cons b bs ih => simp [State.setRegs, ih]
@[simp] theorem State.setRegs_dt (s : State) (k : Nat) (bs : List Byte) : (s.setRegs k bs).dt = s.dt := by
  induction bs generalizing s k with
  | nil => rfl
  | cons b bs ih => simp [State.setRegs, ih]
@[simp] theorem State.setRegs_st (s : State) (k : Nat) (bs : List Byte) : (s.setRegs k bs).st = s.st := by
  induction bs generalizing s k with
  | nil => rfl
  | cons b bs ih => simp [State.setRegs, ih]
@[simp] theorem State.setRegs_drawFlag (s : State) (k : Nat) (bs : List Byte) : (s.setRegs k bs).drawFlag = s.drawFlag := by
  induction bs generalizing s k with
  | nil => rfl
  | cons b bs ih => simp [State.setRegs, ih]
@[simp] theorem State.setRegs_fault (s : State) (k : Nat) (bs : List Byte) : (s.setRegs k bs).fault = s.fault := by
  induction bs generalizing s k with
  | nil => rfl
  | cons b bs ih => simp [State.setRegs, ih]
@[simp] theorem State.setRegs_draws (s : State) (k : Nat) (bs : List Byte) : (s.setRegs k bs).draws = s.draws := by
  induction bs generalizing s k with
  | nil => rfl
  | cons b bs ih => simp [State.setRegs, ih]
@[simp] theorem State.setRegs_params (s : State) (k : Nat) (bs : List Byte) : (s.setRegs k bs).params = s.params := by
  induction bs generalizing s k with
  | nil => rfl
  | cons b bs ih => simp [State.setRegs, ih]
@[simp] theorem State.setRegs_byteAt (s : State) (k : Nat) (bs : List Byte) (a : Nat) : (s.setRegs k bs).byteAt a = s.byteAt a := by
  simp [State.byteAt]

/-! ### `takeFault` -/

@[simp] theorem takeFault_v (o : Option Word) (t : Trap) (s : State) : (takeFault o t s).v = s.v := rfl
@[simp] theorem takeFault_pc (o : Option Word) (t : Trap) (s : State) : (takeFault o t s).pc = s.pc := rfl
@[simp] theorem takeFault_index (o : Option Word) (t : Trap) (s : State) : (takeFault o t s).index = s.index := rfl
@[simp] theorem takeFault_stack (o : Option Word) (t : Trap) (s : State) : (takeFault o t s).stack = s.stack := rfl
@[simp] theorem takeFault_mem (o : Option Word) (t : Trap) (s : State) : (takeFault o t s).mem = s.mem := rfl
@[simp] theorem takeFault_disp (o : Option Word) (t : Trap) (s : State) : (takeFault o t s).disp = s.disp := rfl
@[simp] theorem takeFault_keys (o : Option Word) (t : Trap) (s : State) : (takeFault o t s).keys = s.keys := rfl
@[simp] theorem takeFault_dt (o : Option Word) (t : Trap) (s : State) : (takeFault o t s).dt = s.dt := rfl
@[simp] theorem takeFault_st (o : Option Word) (t : Trap) (s : State) : (takeFault o t s).st = s.st := rfl
@[simp] theorem takeFault_drawFlag (o : Option Word) (t : Trap) (s : State) : (takeFault o t s).drawFlag = s.drawFlag := rfl
@[simp] theorem takeFault_draws (o : Option Word) (t : Trap) (s : State) : (takeFault o t s).draws = s.draws := rfl
@[simp] theorem takeFault_params (o : Option Word) (t : Trap) (s : State) : (takeFault o t s).params = s.params := rfl
@[simp] theorem takeFault_fault (o : Option Word) (t : Trap) (s : State) :
    (takeFault o t s).fault = some ⟨t.cause, s.pc, o, t.info⟩ := rfl
@[simp] theorem takeFault_reg (o : Option Word) (t : Trap) (s : State) (r : Reg) : (takeFault o t s).reg r = s.reg r := rfl
@[simp] theorem takeFault_byteAt (o : Option Word) (t : Trap) (s : State) (a : Nat) : (takeFault o t s).byteAt a = s.byteAt a := rfl

/-! ### Registers -/

/-- A register after a register write (R20). -/
theorem State.reg_setReg (s : State) (x r : Reg) (b : Byte) :
    (s.setReg x b).reg r = if x = r then b else s.reg r := by
  simp only [State.reg, State.setReg, Vector.getElem_set, BitVec.toNat_inj]

@[simp] theorem State.reg_setReg_same (s : State) (x : Reg) (b : Byte) : (s.setReg x b).reg x = b := by
  simp [State.reg_setReg]

theorem State.reg_setReg_other (s : State) (x r : Reg) (b : Byte) (h : r ≠ x) :
    (s.setReg x b).reg r = s.reg r := by
  rw [State.reg_setReg, if_neg (Ne.symm h)]

/-- The register file is what its registers read. -/
theorem State.v_eq_of_reg (s t : State) (h : ∀ r, s.reg r = t.reg r) : s.v = t.v := by
  apply Vector.ext
  intro k hk
  have := h (BitVec.ofNat 4 k)
  simpa [State.reg, Nat.mod_eq_of_lt hk] using this

/-- Registers after a block write that starts at register `k` and ends by VF (R266): register `k + j`
takes byte `j`, the others keep their value. -/
theorem State.reg_setRegs (s : State) (k : Nat) (bs : List Byte) (h : k + bs.length ≤ 16) (r : Reg) :
    (s.setRegs k bs).reg r =
      if k ≤ r.toNat ∧ r.toNat < k + bs.length then bs.getD (r.toNat - k) 0#8 else s.reg r := by
  induction bs generalizing s k with
  | nil => simp only [State.setRegs, List.length_nil, Nat.add_zero]; rw [if_neg (by omega)]
  | cons b bs ih =>
    simp only [List.length_cons] at h
    rw [State.setRegs, ih _ (k + 1) (by omega), State.reg_setReg]
    have hk : (BitVec.ofNat 4 k : Reg) = r ↔ k = r.toNat := by
      rw [← BitVec.toNat_inj, BitVec.toNat_ofNat, Nat.mod_eq_of_lt (by omega)]
    by_cases h1 : k = r.toNat
    · rw [if_neg (by omega), if_pos (hk.2 h1), if_pos (by simp only [List.length_cons]; omega)]
      simp [h1]
    · rw [if_neg (mt hk.1 h1)]
      by_cases h2 : k + 1 ≤ r.toNat ∧ r.toNat < k + 1 + bs.length
      · rw [if_pos h2, if_pos (by simp only [List.length_cons]; omega)]
        obtain ⟨j, hj⟩ : ∃ j, r.toNat - k = j + 1 := ⟨r.toNat - k - 1, by omega⟩
        rw [hj, List.getD_cons_succ]
        congr 1
        omega
      · rw [if_neg h2, if_neg (by simp only [List.length_cons]; omega)]

/-- The registers V0 to Vx as a block (R264). -/
theorem State.length_regsUpTo (s : State) (x : Reg) : (s.regsUpTo x).length = x.toNat + 1 := by
  simp [State.regsUpTo]

theorem State.getD_regsUpTo (s : State) (x : Reg) (k : Nat) (h : k ≤ x.toNat) :
    (s.regsUpTo x).getD k 0#8 = s.reg (BitVec.ofNat 4 k) := by
  have hk : k < x.toNat + 1 := by omega
  simp [State.regsUpTo, List.getD_eq_getElem?_getD, hk]

/-! ### The rest of the state, in one line per block write -/

theorem State.rest_setByte (s : State) (a : Nat) (b : Byte) : { s.setByte a b with mem := s.mem } = s := by
  unfold State.setByte
  split <;> rfl

theorem State.rest_setBytes (s : State) (a : Nat) (bs : List Byte) : { s.setBytes a bs with mem := s.mem } = s := by
  induction bs generalizing s a with
  | nil => rfl
  | cons b bs ih =>
    have h1 := State.rest_setByte s a b
    have h2 := ih (s.setByte a b) (a + 1)
    rw [State.setBytes]
    generalize (s.setByte a b).setBytes (a + 1) bs = t at h2 ⊢
    rw [← h2] at h1
    exact h1

theorem State.rest_setRegs (s : State) (k : Nat) (bs : List Byte) : { s.setRegs k bs with v := s.v } = s := by
  induction bs generalizing s k with
  | nil => rfl
  | cons b bs ih =>
    have h := ih (s.setReg (BitVec.ofNat 4 k) b) (k + 1)
    rw [State.setRegs]
    generalize (s.setReg (BitVec.ofNat 4 k) b).setRegs (k + 1) bs = t at h ⊢
    calc { t with v := s.v } = { { t with v := (s.setReg (BitVec.ofNat 4 k) b).v } with v := s.v } := rfl
      _ = { s.setReg (BitVec.ofNat 4 k) b with v := s.v } := by rw [h]
      _ = s := rfl

end Sys2Proof.Machine
end

