-- ==== Sys2Proof/Laws/Memory.lean ====
section
/-! SUPPORT. Memory: a read after a write, and the canonical form that every memory operation keeps. -/

namespace Sys2Proof.Machine

variable {initial : Nat → Byte}

theorem Memory.read_drop (m : Memory) (a k : Nat) :
    Memory.read initial (m.drop a) k = if a = k then initial k else Memory.read initial m k := by
  induction m with
  | nil => simp [Memory.drop, Memory.read]
  | cons c m ih =>
    obtain ⟨key, b⟩ := c
    simp only [Memory.drop] at ih ⊢
    by_cases h : key = a
    · subst h
      simp only [List.filter_cons, bne_self_eq_false, Bool.false_eq_true, if_false, ih, Memory.read]
      split <;> simp_all
    · have h' : (key != a) = true := by simpa using h
      simp only [List.filter_cons, h', if_true, Memory.read, ih]
      by_cases hk : key = k
      · have : a ≠ k := by rintro rfl; exact h hk
        simp [hk, this]
      · simp [hk]

theorem Memory.read_place (m : Memory) (a k : Nat) (b : Byte) (h : ∀ c ∈ m, c.1 ≠ a) :
    Memory.read initial (Memory.place a b m) k = if a = k then b else Memory.read initial m k := by
  induction m with
  | nil => simp [Memory.place, Memory.read]
  | cons c m ih =>
    obtain ⟨key, d⟩ := c
    have hne : key ≠ a := h (key, d) (by simp)
    have ih := ih fun c hc => h c (by simp [hc])
    simp only [Memory.place]
    split
    · simp [Memory.read]
    · simp only [Memory.read, ih]
      by_cases hk : key = k
      · have : a ≠ k := by rintro rfl; exact hne hk
        simp [hk, this]
      · simp [hk]

theorem Memory.mem_drop {m : Memory} {a : Nat} {c : Host.Cell} (h : c ∈ m.drop a) : c.1 ≠ a := by
  simp only [Memory.drop, List.mem_filter] at h
  simpa using h.2

/-- A read after a write gives the byte written, and every other address reads as before. -/
theorem Memory.read_write (m : Memory) (a k : Nat) (b : Byte) :
    Memory.read initial (Memory.write initial m a b) k = if a = k then b else Memory.read initial m k := by
  unfold Memory.write
  split
  · rename_i h
    rw [Memory.read_drop]
    by_cases hk : a = k
    · subst hk; simp [h]
    · simp [hk]
  · rw [Memory.read_place _ _ _ _ fun c hc => Memory.mem_drop hc, Memory.read_drop]
    split <;> rfl

theorem Memory.wfFrom_mono {m : Memory} {low low' : Nat} (hle : low' ≤ low)
    (h : Memory.wfFrom initial low m = true) : Memory.wfFrom initial low' m = true := by
  cases m with
  | nil => rfl
  | cons c m =>
    obtain ⟨k, b⟩ := c
    simp only [Memory.wfFrom, Bool.and_eq_true, decide_eq_true_eq] at h ⊢
    exact ⟨⟨⟨by omega, h.1.1.2⟩, h.1.2⟩, h.2⟩

theorem Memory.wfFrom_drop {m : Memory} {low : Nat} (a : Nat)
    (h : Memory.wfFrom initial low m = true) : Memory.wfFrom initial low (m.drop a) = true := by
  induction m generalizing low with
  | nil => rfl
  | cons c m ih =>
    obtain ⟨k, b⟩ := c
    simp only [Memory.wfFrom, Bool.and_eq_true, decide_eq_true_eq] at h
    obtain ⟨⟨⟨h1, h2⟩, h3⟩, h4⟩ := h
    have ih := ih h4
    simp only [Memory.drop, List.filter_cons] at ih ⊢
    split
    · simp only [Memory.wfFrom, Bool.and_eq_true, decide_eq_true_eq]
      exact ⟨⟨⟨h1, h2⟩, h3⟩, ih⟩
    · exact Memory.wfFrom_mono (by omega) ih

theorem Memory.wfFrom_place {m : Memory} {low a : Nat} {b : Byte} (hlow : low ≤ a) (ha : a < memSize)
    (hb : b ≠ initial a) (hm : ∀ c ∈ m, c.1 ≠ a) (h : Memory.wfFrom initial low m = true) :
    Memory.wfFrom initial low (Memory.place a b m) = true := by
  have hb' : (b != initial a) = true := by simpa using hb
  induction m generalizing low with
  | nil => simp [Memory.place, Memory.wfFrom, hlow, ha, hb']
  | cons c m ih =>
    obtain ⟨k, d⟩ := c
    have hk : k ≠ a := hm (k, d) (by simp)
    simp only [Memory.wfFrom, Bool.and_eq_true, decide_eq_true_eq] at h
    obtain ⟨⟨⟨h1, h2⟩, h3⟩, h4⟩ := h
    simp only [Memory.place]
    split
    · simp only [Memory.wfFrom, Bool.and_eq_true, decide_eq_true_eq]
      exact ⟨⟨⟨hlow, ha⟩, hb'⟩, ⟨⟨by omega, h2⟩, h3⟩, h4⟩
    · simp only [Memory.wfFrom, Bool.and_eq_true, decide_eq_true_eq]
      exact ⟨⟨⟨h1, h2⟩, h3⟩, ih (by omega) (fun c hc => hm c (by simp [hc])) h4⟩

/-- A write keeps the canonical form. -/
theorem Memory.wf_write {m : Memory} {a : Nat} {b : Byte} (ha : a < memSize)
    (h : Memory.wf initial m = true) : Memory.wf initial (Memory.write initial m a b) = true := by
  unfold Memory.write
  split
  · exact Memory.wfFrom_drop a h
  · exact Memory.wfFrom_place (Nat.zero_le a) ha ‹_› (fun c hc => Memory.mem_drop hc) (Memory.wfFrom_drop a h)

/-- A byte after a byte write: only a written address inside the address space changes. -/
theorem State.byteAt_setByte (s : State) (a k : Nat) (b : Byte) :
    (s.setByte a b).byteAt k = if a = k ∧ a < memSize then b else s.byteAt k := by
  unfold State.setByte
  split
  · rename_i h
    simp only [State.byteAt, Memory.read_write, h, and_true]
  · rename_i h
    simp [h]

/-- A byte after a block write that stays inside the address space. -/
theorem State.byteAt_setBytes (s : State) (a k : Nat) (bs : List Byte) (h : a + bs.length ≤ memSize) :
    (s.setBytes a bs).byteAt k =
      if a ≤ k ∧ k < a + bs.length then bs.getD (k - a) 0#8 else s.byteAt k := by
  induction bs generalizing s a with
  | nil => simp only [State.setBytes, List.length_nil, Nat.add_zero]; rw [if_neg (by omega)]
  | cons b bs ih =>
    simp only [List.length_cons] at h
    rw [State.setBytes, ih _ (a + 1) (by omega), State.byteAt_setByte]
    by_cases h1 : a = k
    · rw [if_neg (by omega), if_pos ⟨h1, by omega⟩, if_pos (by simp only [List.length_cons]; omega)]
      simp [h1]
    · rw [if_neg (show ¬ (a = k ∧ a < memSize) from fun hc => h1 hc.1)]
      by_cases h2 : a + 1 ≤ k ∧ k < a + 1 + bs.length
      · rw [if_pos h2, if_pos (by simp only [List.length_cons]; omega)]
        obtain ⟨j, hj⟩ : ∃ j, k - a = j + 1 := ⟨k - a - 1, by omega⟩
        rw [hj, List.getD_cons_succ]
        congr 1
        omega
      · rw [if_neg h2, if_neg (by simp only [List.length_cons]; omega)]

/-- Outside a written block every byte reads as before, wherever the block lies. -/
theorem State.byteAt_setBytes_outside (s : State) (a k : Nat) (bs : List Byte)
    (h : ¬ (a ≤ k ∧ k < a + bs.length)) : (s.setBytes a bs).byteAt k = s.byteAt k := by
  induction bs generalizing s a with
  | nil => rfl
  | cons b bs ih =>
    simp only [List.length_cons] at h
    rw [State.setBytes, ih _ _ (by omega), State.byteAt_setByte, if_neg (by omega)]

theorem State.wf_setByte {s : State} (a : Nat) (b : Byte)
    (h : Memory.wf (initialByte s.params) s.mem = true) :
    Memory.wf (initialByte (s.setByte a b).params) (s.setByte a b).mem = true := by
  unfold State.setByte
  split
  · exact Memory.wf_write ‹_› h
  · exact h

theorem State.wf_setBytes {s : State} (a : Nat) (bs : List Byte)
    (h : Memory.wf (initialByte s.params) s.mem = true) :
    Memory.wf (initialByte (s.setBytes a bs).params) (s.setBytes a bs).mem = true := by
  induction bs generalizing s a with
  | nil => exact h
  | cons b bs ih => exact ih (a + 1) (State.wf_setByte a b h)

/-- RESET's memory is in the canonical form, and so is every memory that lists nothing. -/
theorem State.wf_reset : Memory.wf (initialByte State.reset.params) State.reset.mem = true := rfl

/-! ### The range check and the block accesses -/

/-- No address outside exactly when nothing is accessed or the block ends by 0xFFF. -/
theorem firstOutside_eq_none_iff (a n : Nat) : firstOutside a n = none ↔ n = 0 ∨ a + n ≤ 0x1000 := by
  simp only [firstOutside, List.find?_eq_none, List.mem_map, List.mem_range, decide_eq_true_eq]
  constructor
  · intro h
    by_cases hn : n = 0
    · exact .inl hn
    · have := h (a + (n - 1)) ⟨n - 1, by omega, rfl⟩
      omega
  · rintro h _ ⟨r, hr, rfl⟩
    omega

/-- The lowest address outside: the block's first address if it is outside, else 0x1000 (R301, R303). -/
theorem firstOutside_eq_some (a n : Nat) (hn : n ≠ 0) (h : 0x1000 < a + n) :
    firstOutside a n = some (max a 0x1000) := by
  obtain ⟨k, hk⟩ : ∃ k, max a 0x1000 = a + k := ⟨max a 0x1000 - a, by omega⟩
  have hkn : k < n := by omega
  rw [firstOutside, List.find?_eq_some_iff_getElem]
  refine ⟨by simp, k, by simpa using hkn, by simp; omega, ?_⟩
  intro j hj
  simp
  omega

theorem checkRange_ok (a n : Nat) (h : n = 0 ∨ a + n ≤ 0x1000) : checkRange a n = .ok () := by
  rw [checkRange, (firstOutside_eq_none_iff a n).2 h]

theorem checkRange_error (a n : Nat) (hn : n ≠ 0) (h : 0x1000 < a + n) :
    checkRange a n = .error ⟨.dataOutOfRange, some (max a 0x1000)⟩ := by
  rw [checkRange, firstOutside_eq_some a n hn h]

/-- Everything `checkRange` can answer. -/
theorem checkRange_cases (a n : Nat) :
    (checkRange a n = .ok () ∧ (n = 0 ∨ a + n ≤ 0x1000)) ∨
    (checkRange a n = .error ⟨.dataOutOfRange, some (max a 0x1000)⟩ ∧ n ≠ 0 ∧ 0x1000 < a + n) := by
  by_cases h : n = 0 ∨ a + n ≤ 0x1000
  · exact .inl ⟨checkRange_ok a n h, h⟩
  · exact .inr ⟨checkRange_error a n (by omega) (by omega), by omega, by omega⟩

/-- Everything `loadBlock` can answer. -/
theorem loadBlock_cases (a n : Nat) (s : State) :
    (loadBlock a n s = .ok (s.bytesAt a n) ∧ (n = 0 ∨ a + n ≤ 0x1000)) ∨
    (loadBlock a n s = .error ⟨.dataOutOfRange, some (max a 0x1000)⟩ ∧ n ≠ 0 ∧ 0x1000 < a + n) := by
  rcases checkRange_cases a n with ⟨h, hr⟩ | ⟨h, hr⟩
  · exact .inl ⟨by rw [loadBlock, h]; rfl, hr⟩
  · exact .inr ⟨by rw [loadBlock, h]; rfl, hr⟩

/-- Everything `storeBlock` can answer. -/
theorem storeBlock_cases (a : Nat) (bs : List Byte) (s : State) :
    (storeBlock a bs s = .ok (s.setBytes a bs) ∧ (bs.length = 0 ∨ a + bs.length ≤ 0x1000)) ∨
    (storeBlock a bs s = .error ⟨.dataOutOfRange, some (max a 0x1000)⟩ ∧ bs.length ≠ 0 ∧
      0x1000 < a + bs.length) := by
  rcases checkRange_cases a bs.length with ⟨h, hr⟩ | ⟨h, hr⟩
  · exact .inl ⟨by rw [storeBlock, h]; rfl, hr⟩
  · exact .inr ⟨by rw [storeBlock, h]; rfl, hr⟩

theorem State.length_bytesAt (s : State) (a n : Nat) : (s.bytesAt a n).length = n := by
  simp [State.bytesAt]

theorem State.getD_bytesAt (s : State) (a n k : Nat) (h : k < n) :
    (s.bytesAt a n).getD k 0#8 = s.byteAt (a + k) := by
  simp [State.bytesAt, List.getD_eq_getElem?_getD, h]

end Sys2Proof.Machine
end

