-- ==== Sys2Proof/Laws/Ops.lean ====
section
/-! SUPPORT. What each shared operation can answer, said once. -/

namespace Sys2Proof.Machine

/-- A committed instruction that raises nothing. -/
theorem commit_ok {i : Instr} {s t : State} {body : State → Except Trap State} (h : body s.advance = .ok t) :
    commit i s body = .next t := by rw [commit, h]

/-- A committed instruction that raises takes the fault from the state before the STEP. -/
theorem commit_error {i : Instr} {s : State} {trap : Trap} {body : State → Except Trap State}
    (h : body s.advance = .error trap) :
    commit i s body = .next (takeFault (some (encode i)) trap s) := by rw [commit, h]

/-- Everything `commit` can answer. -/
theorem commit_cases {i : Instr} {s t : State} {body : State → Except Trap State}
    (h : commit i s body = .next t) :
    body s.advance = .ok t ∨
      ∃ trap, body s.advance = .error trap ∧ t = takeFault (some (encode i)) trap s := by
  unfold commit at h
  split at h
  · rename_i u hu
    cases h
    exact .inl hu
  · rename_i trap htrap
    cases h
    exact .inr ⟨trap, htrap, rfl⟩

/-- Everything `push` can answer (R31). -/
theorem push_cases (a : Word) (s : State) :
    (push a s = .ok { s with stack := a :: s.stack } ∧ s.params.stackDepth ≠ some s.stack.length) ∨
    (push a s = .error ⟨.stackOverflow, none⟩ ∧ s.params.stackDepth = some s.stack.length) := by
  unfold push State.stackFull
  cases h : s.params.stackDepth with
  | none => exact .inl ⟨by simp, by simp⟩
  | some depth =>
    by_cases hd : s.stack.length = depth
    · exact .inr ⟨by simp [hd], by simp [hd]⟩
    · exact .inl ⟨by simp [hd], by simp [Ne.symm hd]⟩

/-- Everything `pop` can answer (R32). -/
theorem pop_cases (s : State) :
    (∃ a rest, s.stack = a :: rest ∧ pop s = .ok (a, { s with stack := rest })) ∨
    (s.stack = [] ∧ pop s = .error ⟨.stackUnderflow, none⟩) := by
  unfold pop
  cases h : s.stack with
  | nil => exact .inr ⟨rfl, rfl⟩
  | cons a rest => exact .inl ⟨a, rest, rfl, rfl⟩

/-- Everything `keyOperand` can answer (R240). -/
theorem keyOperand_cases (x : Reg) (s : State) :
    (∃ h : (s.reg x).toNat < 16, keyOperand x s = .ok ⟨(s.reg x).toNat, h⟩) ∨
    (15 < (s.reg x).toNat ∧ keyOperand x s = .error ⟨.keyIndexOutOfRange, some (s.reg x).toNat⟩) := by
  unfold keyOperand
  by_cases h : (s.reg x).toNat < 16
  · exact .inl ⟨h, by rw [dif_pos h]⟩
  · exact .inr ⟨by omega, by rw [dif_neg h]⟩

/-- Everything `addToIndex` can answer (R254). -/
theorem addToIndex_cases (x : Reg) (s : State) :
    (s.index.toNat + (s.reg x).toNat ≤ 0xFFFF ∧
      addToIndex x s = .ok { s with index := BitVec.ofNat 16 (s.index.toNat + (s.reg x).toNat) }) ∨
    (0xFFFF < s.index.toNat + (s.reg x).toNat ∧
      addToIndex x s = .error ⟨.indexOverflow, some (s.index.toNat + (s.reg x).toNat)⟩) := by
  unfold addToIndex
  by_cases h : s.index.toNat + (s.reg x).toNat > 0xFFFF
  · exact .inr ⟨h, by simp [h]⟩
  · exact .inl ⟨by omega, by simp [h]⟩

/-- Everything `checkAlias` can answer (R172). -/
theorem checkAlias_cases (listed : Bool) (s : State) :
    (checkAlias listed s = .ok () ∧ (s.params.aliasPolicy = .sequential ∨ listed = false)) ∨
    (checkAlias listed s = .error ⟨.aliasRefused, none⟩ ∧ s.params.aliasPolicy = .refuse ∧ listed = true) := by
  unfold checkAlias
  cases h : s.params.aliasPolicy <;> cases listed <;> simp

/-- The lowest pressed key, or none pressed (R256). -/
theorem lowestKey_cases (keys : Vector Bool 16) :
    (∃ k : Fin 16, lowestKey keys = some k ∧ keys[k.val]'k.isLt = true ∧
      ∀ j : Fin 16, j < k → keys[j.val]'j.isLt = false) ∨
    (lowestKey keys = none ∧ ∀ k : Fin 16, keys[k.val]'k.isLt = false) := by
  cases h : lowestKey keys with
  | none =>
    refine .inr ⟨rfl, fun k => ?_⟩
    have := List.find?_eq_none.1 h k (List.mem_finRange k)
    simpa using this
  | some k =>
    refine .inl ⟨k, rfl, List.find?_some (p := fun k : Fin 16 => keys[k.val]'k.isLt) h, fun j hj => ?_⟩
    obtain ⟨_, p, hp, hk, hbefore⟩ := List.find?_eq_some_iff_getElem.1 h
    simp only [List.getElem_finRange, Fin.ext_iff, Fin.val_cast] at hk
    have := hbefore j.val (by have := Fin.lt_def.1 hj; omega)
    simpa using this

/-- Registers after the two writes of 8xy4 to 8xyE (R171). -/
theorem reg_flagThenResult (x r : Reg) (flag : Byte) (result : State → Byte) (s : State) :
    (flagThenResult x flag result s).reg r =
      if x = r then result (s.setReg VF flag) else if VF = r then flag else s.reg r := by
  simp only [flagThenResult, State.reg_setReg]

/-- The two writes touch the register file alone. -/
theorem rest_flagThenResult (x : Reg) (flag : Byte) (result : State → Byte) (s : State) :
    { flagThenResult x flag result s with v := s.v } = s := rfl

/-! ### What the two writes of 8xy4 to 8xyE leave alone -/

@[simp] theorem flagThenResult_pc (x : Reg) (flag : Byte) (result : State → Byte) (s : State) :
    (flagThenResult x flag result s).pc = s.pc := rfl
@[simp] theorem flagThenResult_index (x : Reg) (flag : Byte) (result : State → Byte) (s : State) :
    (flagThenResult x flag result s).index = s.index := rfl
@[simp] theorem flagThenResult_stack (x : Reg) (flag : Byte) (result : State → Byte) (s : State) :
    (flagThenResult x flag result s).stack = s.stack := rfl
@[simp] theorem flagThenResult_mem (x : Reg) (flag : Byte) (result : State → Byte) (s : State) :
    (flagThenResult x flag result s).mem = s.mem := rfl
@[simp] theorem flagThenResult_disp (x : Reg) (flag : Byte) (result : State → Byte) (s : State) :
    (flagThenResult x flag result s).disp = s.disp := rfl
@[simp] theorem flagThenResult_keys (x : Reg) (flag : Byte) (result : State → Byte) (s : State) :
    (flagThenResult x flag result s).keys = s.keys := rfl
@[simp] theorem flagThenResult_dt (x : Reg) (flag : Byte) (result : State → Byte) (s : State) :
    (flagThenResult x flag result s).dt = s.dt := rfl
@[simp] theorem flagThenResult_st (x : Reg) (flag : Byte) (result : State → Byte) (s : State) :
    (flagThenResult x flag result s).st = s.st := rfl
@[simp] theorem flagThenResult_drawFlag (x : Reg) (flag : Byte) (result : State → Byte) (s : State) :
    (flagThenResult x flag result s).drawFlag = s.drawFlag := rfl
@[simp] theorem flagThenResult_fault (x : Reg) (flag : Byte) (result : State → Byte) (s : State) :
    (flagThenResult x flag result s).fault = s.fault := rfl
@[simp] theorem flagThenResult_draws (x : Reg) (flag : Byte) (result : State → Byte) (s : State) :
    (flagThenResult x flag result s).draws = s.draws := rfl
@[simp] theorem flagThenResult_params (x : Reg) (flag : Byte) (result : State → Byte) (s : State) :
    (flagThenResult x flag result s).params = s.params := rfl
@[simp] theorem flagThenResult_byteAt (x : Reg) (flag : Byte) (result : State → Byte) (s : State) (a : Nat) :
    (flagThenResult x flag result s).byteAt a = s.byteAt a := rfl

/-- Everything `fetch` can answer (R91). -/
theorem fetch_cases (s : State) :
    (s.pc.toNat ≤ 0xFFE ∧ fetch s = .ok s.fetchedWord) ∨
    (0xFFE < s.pc.toNat ∧ fetch s = .error ⟨.fetchOutOfRange, some (max s.pc.toNat 0x1000)⟩) := by
  unfold fetch
  by_cases h : s.pc.toNat > 0xFFE
  · refine .inr ⟨h, ?_⟩
    rw [if_pos h]
    congr 3
    split <;> omega
  · exact .inl ⟨by omega, by rw [if_neg h]⟩

/-- Everything `fetchDecode` can answer (R90, R303). -/
theorem fetchDecode_cases (s : State) :
    (0xFFE < s.pc.toNat ∧
      fetchDecode s = .error (none, ⟨.fetchOutOfRange, some (max s.pc.toNat 0x1000)⟩)) ∨
    (s.pc.toNat ≤ 0xFFE ∧ decode s.fetchedWord = .error (.illegal s.fetchedWord) ∧
      fetchDecode s = .error (some s.fetchedWord, ⟨.decodeError, none⟩)) ∨
    (∃ i, s.pc.toNat ≤ 0xFFE ∧ decode s.fetchedWord = .ok i ∧ fetchDecode s = .ok i) := by
  unfold fetchDecode
  rcases fetch_cases s with ⟨hpc, hf⟩ | ⟨hpc, hf⟩
  · rw [hf]
    cases hd : decode s.fetchedWord with
    | ok i => exact .inr (.inr ⟨i, hpc, rfl, by simp [hd]⟩)
    | error e =>
      refine .inr (.inl ⟨hpc, ?_, by simp [hd]⟩)
      unfold decode at hd
      split at hd
      · cases hd
      · exact hd.symm
  · exact .inl ⟨hpc, by rw [hf]⟩

/-- A word placed at `PC` is the word the next fetch reads (R66, R91). -/
theorem fetchedWord_placeWord (op : Word) (s : State) (h : s.pc.toNat ≤ 0xFFE) :
    (placeWord op s).fetchedWord = op := by
  have hlen : (bytesOfWord op).length = 2 := rfl
  have hfit : s.pc.toNat + (bytesOfWord op).length ≤ memSize := by
    rw [hlen, memSize]; omega
  unfold placeWord State.fetchedWord
  rw [State.setBytes_pc, State.byteAt_setBytes _ _ _ _ hfit, State.byteAt_setBytes _ _ _ _ hfit,
    if_pos (by omega), if_pos (by omega), Nat.sub_self, Nat.add_sub_cancel_left]
  exact wordOfBytes_bytesOfWord op

end Sys2Proof.Machine
end

