-- ==== Sys2Proof/Laws/Exec.lean ====
section
/-! SUPPORT. Everything each instruction that can fault answers, its two cases in closed form; the other
instructions answer `commitPure` of their body by definition. -/

namespace Sys2Proof.Machine

@[simp] theorem State.advance_base (s : State) : s.advance.base = s.base := rfl
@[simp] theorem State.advance_regsUpTo (s : State) (x : Reg) : s.advance.regsUpTo x = s.regsUpTo x := rfl
@[simp] theorem State.advance_bytesAt (s : State) (a n : Nat) : s.advance.bytesAt a n = s.bytesAt a n := rfl

/-- R131. -/
theorem execRet_cases (s : State) :
    (∃ a rest, s.stack = a :: rest ∧ exec .ret s = .next { s with pc := a, stack := rest }) ∨
    (s.stack = [] ∧ exec .ret s = .next (takeFault (some (encode .ret)) ⟨.stackUnderflow, none⟩ s)) := by
  rcases pop_cases s.advance with ⟨a, rest, hs, hp⟩ | ⟨hs, hp⟩
  · exact .inl ⟨a, rest, hs, by simp only [exec, execRet, commit, hp]; rfl⟩
  · exact .inr ⟨hs, by simp only [exec, execRet, commit, hp]; rfl⟩

/-- R142, R31. -/
theorem execCall_cases (nnn : Addr) (s : State) :
    (s.params.stackDepth ≠ some s.stack.length ∧ exec (.call nnn) s =
      .next { s with pc := addressOf nnn, stack := (s.pc + 2#16) :: s.stack }) ∨
    (s.params.stackDepth = some s.stack.length ∧ exec (.call nnn) s =
      .next (takeFault (some (encode (.call nnn))) ⟨.stackOverflow, none⟩ s)) := by
  rcases push_cases s.advance.pc s.advance with ⟨hp, hs⟩ | ⟨hp, hs⟩
  · exact .inl ⟨hs, by simp only [exec, execCall, commit, hp]; rfl⟩
  · exact .inr ⟨hs, by simp only [exec, execCall, commit, hp]; rfl⟩

/-- The shape of 8xy4 to 8xyE: the check of R172, then a result that is always there. -/
theorem commit_checkAlias_cases (i : Instr) (listed : Bool) (s : State) (result : State → State) :
    ((s.params.aliasPolicy = .sequential ∨ listed = false) ∧
      commit i s (fun s0 => (checkAlias listed s0).map fun _ => result s0) = .next (result s.advance)) ∨
    (s.params.aliasPolicy = .refuse ∧ listed = true ∧
      commit i s (fun s0 => (checkAlias listed s0).map fun _ => result s0) =
        .next (takeFault (some (encode i)) ⟨.aliasRefused, none⟩ s)) := by
  rcases checkAlias_cases listed s.advance with ⟨hc, h⟩ | ⟨hc, h⟩
  · exact .inl ⟨h, commit_ok (by simp only [hc]; rfl)⟩
  · exact .inr ⟨h.1, h.2, commit_error (by simp only [hc]; rfl)⟩

/-- R178. -/
theorem execAddReg_cases (x y : Reg) (s : State) :
    ((s.params.aliasPolicy = .sequential ∨ (x == VF) = false) ∧ exec (.addReg x y) s =
      .next (flagThenResult x (carryFlag (s.reg x) (s.reg y)) (fun _ => addResult (s.reg x) (s.reg y)) s.advance)) ∨
    (s.params.aliasPolicy = .refuse ∧ (x == VF) = true ∧ exec (.addReg x y) s =
      .next (takeFault (some (encode (.addReg x y))) ⟨.aliasRefused, none⟩ s)) :=
  commit_checkAlias_cases _ _ _ _

/-- R179. -/
theorem execSubReg_cases (x y : Reg) (s : State) :
    ((s.params.aliasPolicy = .sequential ∨ (x == VF || y == VF) = false) ∧ exec (.subReg x y) s =
      .next (flagThenResult x (greaterFlag (s.reg x) (s.reg y)) (fun s1 => subResult (s1.reg x) (s1.reg y)) s.advance)) ∨
    (s.params.aliasPolicy = .refuse ∧ (x == VF || y == VF) = true ∧ exec (.subReg x y) s =
      .next (takeFault (some (encode (.subReg x y))) ⟨.aliasRefused, none⟩ s)) :=
  commit_checkAlias_cases _ _ _ _

/-- R181. -/
theorem execShr_cases (x y : Reg) (s : State) :
    ((s.params.aliasPolicy = .sequential ∨ (x == VF) = false) ∧ exec (.shr x y) s =
      .next (flagThenResult x (shrFlag (s.reg x)) (fun s1 => shrResult (s1.reg x)) s.advance)) ∨
    (s.params.aliasPolicy = .refuse ∧ (x == VF) = true ∧ exec (.shr x y) s =
      .next (takeFault (some (encode (.shr x y))) ⟨.aliasRefused, none⟩ s)) :=
  commit_checkAlias_cases _ _ _ _

/-- R182. -/
theorem execSubn_cases (x y : Reg) (s : State) :
    ((s.params.aliasPolicy = .sequential ∨ (x == VF || y == VF) = false) ∧ exec (.subn x y) s =
      .next (flagThenResult x (greaterFlag (s.reg y) (s.reg x)) (fun s1 => subResult (s1.reg y) (s1.reg x)) s.advance)) ∨
    (s.params.aliasPolicy = .refuse ∧ (x == VF || y == VF) = true ∧ exec (.subn x y) s =
      .next (takeFault (some (encode (.subn x y))) ⟨.aliasRefused, none⟩ s)) :=
  commit_checkAlias_cases _ _ _ _

/-- R183. -/
theorem execShl_cases (x y : Reg) (s : State) :
    ((s.params.aliasPolicy = .sequential ∨ (x == VF) = false) ∧ exec (.shl x y) s =
      .next (flagThenResult x (shlFlag (s.reg x)) (fun s1 => shlResult (s1.reg x)) s.advance)) ∨
    (s.params.aliasPolicy = .refuse ∧ (x == VF) = true ∧ exec (.shl x y) s =
      .next (takeFault (some (encode (.shl x y))) ⟨.aliasRefused, none⟩ s)) :=
  commit_checkAlias_cases _ _ _ _

/-- The sprite unit's run of a Dxyn: the display and the detector after it (R220). -/
def drawnBy (x y : Reg) (n : Rows) (s : State) : Grid × Bool :=
  drawRows (s.bytesAt s.base n.toNat) (originColumn (s.reg x)) (originRow (s.reg y)) (s.disp, false)

/-- R220, R224. -/
theorem execDrw_cases (x y : Reg) (n : Rows) (s : State) :
    ((n.toNat = 0 ∨ s.base + n.toNat ≤ 0x1000) ∧ exec (.drw x y n) s =
      .next { s.advance.setReg VF (collisionFlag (drawnBy x y n s).2) with
        disp := (drawnBy x y n s).1, drawFlag := true }) ∨
    (n.toNat ≠ 0 ∧ 0x1000 < s.base + n.toNat ∧ exec (.drw x y n) s =
      .next (takeFault (some (encode (.drw x y n))) ⟨.dataOutOfRange, some (max s.base 0x1000)⟩ s)) := by
  rcases loadBlock_cases s.base n.toNat s.advance with ⟨hl, h⟩ | ⟨hl, h⟩
  · exact .inl ⟨h, by simp only [exec, execDrw, commit, State.advance_base, hl]; rfl⟩
  · exact .inr ⟨h.1, h.2, by simp only [exec, execDrw, commit, State.advance_base, hl]; rfl⟩

/-- R241, R240. -/
theorem execSkp_cases (x : Reg) (s : State) :
    (∃ h : (s.reg x).toNat < 16, exec (.skp x) s =
      .next (skipIf (s.keys[(s.reg x).toNat]'h) s.advance)) ∨
    (15 < (s.reg x).toNat ∧ exec (.skp x) s =
      .next (takeFault (some (encode (.skp x))) ⟨.keyIndexOutOfRange, some (s.reg x).toNat⟩ s)) := by
  rcases keyOperand_cases x s.advance with ⟨h, hk⟩ | ⟨h, hk⟩
  · exact .inl ⟨h, by simp only [exec, execSkp, commit, hk]; rfl⟩
  · exact .inr ⟨h, by simp only [exec, execSkp, commit, hk]; rfl⟩

/-- R242, R240. -/
theorem execSknp_cases (x : Reg) (s : State) :
    (∃ h : (s.reg x).toNat < 16, exec (.sknp x) s =
      .next (skipIf (!(s.keys[(s.reg x).toNat]'h)) s.advance)) ∨
    (15 < (s.reg x).toNat ∧ exec (.sknp x) s =
      .next (takeFault (some (encode (.sknp x))) ⟨.keyIndexOutOfRange, some (s.reg x).toNat⟩ s)) := by
  rcases keyOperand_cases x s.advance with ⟨h, hk⟩ | ⟨h, hk⟩
  · exact .inl ⟨h, by simp only [exec, execSknp, commit, hk]; rfl⟩
  · exact .inr ⟨h, by simp only [exec, execSknp, commit, hk]; rfl⟩

/-- R254. -/
theorem execAddI_cases (x : Reg) (s : State) :
    (s.index.toNat + (s.reg x).toNat ≤ 0xFFFF ∧ exec (.addI x) s =
      .next ({ s.advance with index := BitVec.ofNat 16 (s.index.toNat + (s.reg x).toNat) }.setReg VF
        (indexFlag (BitVec.ofNat 16 (s.index.toNat + (s.reg x).toNat))))) ∨
    (0xFFFF < s.index.toNat + (s.reg x).toNat ∧ exec (.addI x) s =
      .next (takeFault (some (encode (.addI x))) ⟨.indexOverflow, some (s.index.toNat + (s.reg x).toNat)⟩ s)) := by
  rcases addToIndex_cases x s.advance with ⟨h, ha⟩ | ⟨h, ha⟩
  · exact .inl ⟨h, by simp only [exec, execAddI, commit, ha]; rfl⟩
  · exact .inr ⟨h, by simp only [exec, execAddI, commit, ha]; rfl⟩

/-- R256, R257. -/
theorem execWaitKey_cases (x : Reg) (s : State) :
    (∃ k : Fin 16, exec (.waitKey x) s = .next (s.advance.setReg x (BitVec.ofNat 8 k.val)) ∧
      s.keys[k.val]'k.isLt = true ∧ ∀ j : Fin 16, j < k → s.keys[j.val]'j.isLt = false) ∨
    (exec (.waitKey x) s = .next s ∧ ∀ k : Fin 16, s.keys[k.val]'k.isLt = false) := by
  rcases lowestKey_cases s.keys with ⟨k, hk, h⟩ | ⟨hk, h⟩
  · exact .inl ⟨k, by simp only [exec, execWaitKey, commitPure, State.advance_keys, hk], h⟩
  · refine .inr ⟨?_, h⟩
    simp only [exec, execWaitKey, commitPure, State.advance_keys, hk]
    simp [State.jump, State.advance]

/-- R262, R260. -/
theorem execStoreBcd_cases (x : Reg) (s : State) :
    (s.base + 2 ≤ 0xFFF ∧ exec (.storeBcd x) s =
      .next (s.advance.setBytes s.base (decimalDigits (s.reg x)))) ∨
    (0xFFF < s.base + 2 ∧ exec (.storeBcd x) s =
      .next (takeFault (some (encode (.storeBcd x))) ⟨.dataOutOfRange, some (max s.base 0x1000)⟩ s)) := by
  have hlen : (decimalDigits (s.reg x)).length = 3 := rfl
  rcases storeBlock_cases s.base (decimalDigits (s.reg x)) s.advance with ⟨hb, h⟩ | ⟨hb, _, h⟩
  · exact .inl ⟨by omega, commit_ok hb⟩
  · exact .inr ⟨by omega, commit_error hb⟩

/-- R264. -/
theorem execStoreRegs_cases (x : Reg) (s : State) :
    (s.base + x.toNat ≤ 0xFFF ∧ exec (.storeRegs x) s =
      .next (s.advance.setBytes s.base (s.regsUpTo x))) ∨
    (0xFFF < s.base + x.toNat ∧ exec (.storeRegs x) s =
      .next (takeFault (some (encode (.storeRegs x))) ⟨.dataOutOfRange, some (max s.base 0x1000)⟩ s)) := by
  have hlen := State.length_regsUpTo s x
  rcases storeBlock_cases s.base (s.regsUpTo x) s.advance with ⟨hb, h⟩ | ⟨hb, _, h⟩
  · exact .inl ⟨by omega, commit_ok hb⟩
  · exact .inr ⟨by omega, commit_error hb⟩

/-- R266. -/
theorem execLoadRegs_cases (x : Reg) (s : State) :
    (s.base + x.toNat ≤ 0xFFF ∧ exec (.loadRegs x) s =
      .next (s.advance.setRegs 0 (s.bytesAt s.base (blockLength x)))) ∨
    (0xFFF < s.base + x.toNat ∧ exec (.loadRegs x) s =
      .next (takeFault (some (encode (.loadRegs x))) ⟨.dataOutOfRange, some (max s.base 0x1000)⟩ s)) := by
  rcases loadBlock_cases s.base (blockLength x) s.advance with ⟨hb, h⟩ | ⟨hb, _, h⟩
  · exact .inl ⟨by simp only [blockLength] at h; omega, by simp only [exec, execLoadRegs, commit, State.advance_base, hb]; rfl⟩
  · exact .inr ⟨by simp only [blockLength] at h; omega, by simp only [exec, execLoadRegs, commit, State.advance_base, hb]; rfl⟩

end Sys2Proof.Machine
end

