-- ==== Sys2Proof/Laws/Frame.lean ====
section
/-! SUPPORT. The frame of each shared write, for statements that end in `Frame`. -/

namespace Sys2Proof.Safety

open Sys2Proof.Machine

/-- One register written. -/
theorem frame_setReg (s : State) (x : Reg) (b : Byte) : Frame { regs := [x] } s (s.advance.setReg x b) := by
  constructor <;> intros <;> first | rfl | simp_all [State.reg_setReg_other]

/-- The flag and a result written (R171). -/
theorem frame_flagThenResult (s : State) (x : Reg) (flag : Byte) (result : State → Byte) :
    Frame { regs := [x, VF] } s (flagThenResult x flag result s.advance) := by
  constructor <;> intros <;> first | rfl | skip
  rename_i q hq
  simp only [List.mem_cons, List.not_mem_nil, or_false, not_or] at hq
  rw [reg_flagThenResult, if_neg (Ne.symm hq.1), if_neg (Ne.symm hq.2)]
  rfl

/-- A taken or an untaken skip (R140). -/
theorem frame_skipIf (s : State) (cond : Bool) : Frame {} s (skipIf cond s.advance) := by
  cases cond <;> constructor <;> intros <;> rfl

/-- Where a skip leaves `PC` (R140). -/
theorem pc_skipIf (s : State) (cond : Bool) (p : Prop) [Decidable p] (h : cond = true ↔ p) :
    (skipIf cond s.advance).pc = skipPc p s := by
  unfold skipIf skipPc
  by_cases hp : p
  · rw [if_pos (h.2 hp), if_pos hp]
    show s.pc + 2#16 + 2#16 = _
    rw [BitVec.add_assoc]
    rfl
  · rw [if_neg (fun hc => hp (h.1 hc)), if_neg hp]
    rfl

/-- Bytes stored (R61). -/
theorem frame_setBytes (s : State) (a : Nat) (bs : List Byte) :
    Frame { base := a, count := bs.length } s (s.advance.setBytes a bs) := by
  constructor <;> intros <;> try simp
  rename_i h
  rw [State.byteAt_setBytes_outside _ _ _ _ h]
  rfl

end Sys2Proof.Safety
end

