-- ==== Sys2Proof/Laws/Inversion.lean ====
section
/-! SUPPORT. What an instruction and a STEP can answer, said once for all 34 instructions. -/

namespace Sys2Proof.Safety

open Sys2Proof.Machine

/-- The state an instruction leaves when it takes no fault. -/
def resultOf : Instr → State → State
  | .cls, s => { s.advance with disp := Grid.blank, drawFlag := true }
  | .ret, s => { s with pc := s.stack.headD s.pc, stack := s.stack.tail }
  | .jp nnn, s => s.jump (addressOf nnn)
  | .call nnn, s => { s with pc := addressOf nnn, stack := (s.pc + 2#16) :: s.stack }
  | .seImm x kk, s => skipIf (s.reg x == kk) s.advance
  | .sneImm x kk, s => skipIf (s.reg x != kk) s.advance
  | .seReg x y, s => skipIf (s.reg x == s.reg y) s.advance
  | .ldImm x kk, s => s.advance.setReg x kk
  | .addImm x kk, s => s.advance.setReg x (addResult (s.reg x) kk)
  | .ldReg x y, s => s.advance.setReg x (s.reg y)
  | .orReg x y, s => s.advance.setReg x (s.reg x ||| s.reg y)
  | .andReg x y, s => s.advance.setReg x (s.reg x &&& s.reg y)
  | .xorReg x y, s => s.advance.setReg x (s.reg x ^^^ s.reg y)
  | .addReg x y, s =>
    flagThenResult x (carryFlag (s.reg x) (s.reg y)) (fun _ => addResult (s.reg x) (s.reg y)) s.advance
  | .subReg x y, s =>
    flagThenResult x (greaterFlag (s.reg x) (s.reg y)) (fun s1 => subResult (s1.reg x) (s1.reg y)) s.advance
  | .shr x _, s => flagThenResult x (shrFlag (s.reg x)) (fun s1 => shrResult (s1.reg x)) s.advance
  | .subn x y, s =>
    flagThenResult x (greaterFlag (s.reg y) (s.reg x)) (fun s1 => subResult (s1.reg y) (s1.reg x)) s.advance
  | .shl x _, s => flagThenResult x (shlFlag (s.reg x)) (fun s1 => shlResult (s1.reg x)) s.advance
  | .sneReg x y, s => skipIf (s.reg x != s.reg y) s.advance
  | .ldI nnn, s => { s.advance with index := addressOf nnn }
  | .jpV0 nnn, s => s.jump (indexedTarget nnn s)
  | .rnd x kk, s =>
    { s.advance with draws := s.draws + 1 }.setReg x (Config.randomByte s.draws &&& kk)
  | .drw x y n, s =>
    { s.advance.setReg VF (collisionFlag (drawnBy x y n s).2) with disp := (drawnBy x y n s).1, drawFlag := true }
  | .skp x, s => skipIf (s.keys.toList.getD (s.reg x).toNat false) s.advance
  | .sknp x, s => skipIf (!(s.keys.toList.getD (s.reg x).toNat false)) s.advance
  | .readDT x, s => s.advance.setReg x s.dt
  | .setDT x, s => { s.advance with dt := s.reg x }
  | .setST x, s => { s.advance with st := s.reg x }
  | .addI x, s =>
    { s.advance with index := BitVec.ofNat 16 (s.index.toNat + (s.reg x).toNat) }.setReg VF
      (indexFlag (BitVec.ofNat 16 (s.index.toNat + (s.reg x).toNat)))
  | .waitKey x, s =>
    match lowestKey s.keys with
    | some k => s.advance.setReg x (BitVec.ofNat 8 k.val)
    | none => s
  | .ldFont x, s => { s.advance with index := glyphAddress (s.reg x) }
  | .storeBcd x, s => s.advance.setBytes s.base (decimalDigits (s.reg x))
  | .storeRegs x, s => s.advance.setBytes s.base (s.regsUpTo x)
  | .loadRegs x, s => s.advance.setRegs 0 (s.bytesAt s.base (blockLength x))

/-! ### What the table of R301 says in each case -/

theorem rangeFault_none {s : State} {count : Nat} (h : count = 0 ∨ s.base + count ≤ 0x1000) :
    rangeFault s count = none := by
  rw [State.base] at h
  rw [rangeFault, if_neg (by omega)]

theorem rangeFault_some {s : State} {count : Nat} (hn : count ≠ 0) (h : 0x1000 < s.base + count) :
    rangeFault s count = some ⟨.dataOutOfRange, some (max s.base 0x1000)⟩ := by
  rw [rangeFault, if_pos ⟨hn, h⟩, State.base]

theorem aliasFault_none {s : State} {listed : Bool} (h : s.params.aliasPolicy = .sequential ∨ listed = false) :
    aliasFault listed s = none := by
  rw [aliasFault, if_neg]
  rintro ⟨hp, hl⟩
  rcases h with h | h
  · rw [h] at hp; cases hp
  · rw [h] at hl; cases hl

theorem aliasFault_some {s : State} {listed : Bool} (hp : s.params.aliasPolicy = .refuse) (hl : listed = true) :
    aliasFault listed s = some ⟨.aliasRefused, none⟩ := by rw [aliasFault, if_pos ⟨hp, hl⟩]

/-- An instruction answers its result when no fault is due, and else takes the fault that is due. -/
theorem exec_eq (i : Instr) (s : State) :
    exec i s = .next (match executeFault i s with
      | none => resultOf i s
      | some trap => takeFault (some (encode i)) trap s) := by
  cases i with
  | ret =>
    rcases execRet_cases s with ⟨a, rest, hs, h⟩ | ⟨hs, h⟩ <;> rw [h] <;> simp [executeFault, hs, resultOf]
  | call nnn =>
    rcases execCall_cases nnn s with ⟨hd, h⟩ | ⟨hd, h⟩ <;> rw [h, executeFault]
    · rw [if_neg hd]; rfl
    · rw [if_pos hd]
  | addReg x y =>
    rcases execAddReg_cases x y s with ⟨hl, h⟩ | ⟨hp, hl, h⟩ <;> rw [h, executeFault, aliasListed]
    · rw [aliasFault_none hl]; rfl
    · rw [aliasFault_some hp hl]
  | subReg x y =>
    rcases execSubReg_cases x y s with ⟨hl, h⟩ | ⟨hp, hl, h⟩ <;> rw [h, executeFault, aliasListed]
    · rw [aliasFault_none hl]; rfl
    · rw [aliasFault_some hp hl]
  | shr x y =>
    rcases execShr_cases x y s with ⟨hl, h⟩ | ⟨hp, hl, h⟩ <;> rw [h, executeFault, aliasListed]
    · rw [aliasFault_none hl]; rfl
    · rw [aliasFault_some hp hl]
  | subn x y =>
    rcases execSubn_cases x y s with ⟨hl, h⟩ | ⟨hp, hl, h⟩ <;> rw [h, executeFault, aliasListed]
    · rw [aliasFault_none hl]; rfl
    · rw [aliasFault_some hp hl]
  | shl x y =>
    rcases execShl_cases x y s with ⟨hl, h⟩ | ⟨hp, hl, h⟩ <;> rw [h, executeFault, aliasListed]
    · rw [aliasFault_none hl]; rfl
    · rw [aliasFault_some hp hl]
  | drw x y n =>
    rcases execDrw_cases x y n s with ⟨hr, h⟩ | ⟨hn, hr, h⟩ <;> rw [h, executeFault]
    · rw [rangeFault_none hr]; rfl
    · rw [rangeFault_some hn hr]
  | skp x =>
    rcases execSkp_cases x s with ⟨hx, h⟩ | ⟨hx, h⟩ <;> rw [h, executeFault, keyFault]
    · rw [if_neg (by omega)]; simp [resultOf, List.getD_eq_getElem?_getD, hx]
    · rw [if_pos hx]
  | sknp x =>
    rcases execSknp_cases x s with ⟨hx, h⟩ | ⟨hx, h⟩ <;> rw [h, executeFault, keyFault]
    · rw [if_neg (by omega)]; simp [resultOf, List.getD_eq_getElem?_getD, hx]
    · rw [if_pos hx]
  | addI x =>
    rcases execAddI_cases x s with ⟨hx, h⟩ | ⟨hx, h⟩ <;> rw [h, executeFault]
    · rw [if_neg (by omega)]; rfl
    · rw [if_pos hx]
  | storeBcd x =>
    rcases execStoreBcd_cases x s with ⟨hr, h⟩ | ⟨hr, h⟩ <;> rw [h, executeFault]
    · rw [rangeFault_none (by omega)]; rfl
    · rw [rangeFault_some (by omega) (by omega)]
  | storeRegs x =>
    rcases execStoreRegs_cases x s with ⟨hr, h⟩ | ⟨hr, h⟩ <;> rw [h, executeFault]
    · rw [rangeFault_none (by omega)]; rfl
    · rw [rangeFault_some (by omega) (by omega)]
  | loadRegs x =>
    rcases execLoadRegs_cases x s with ⟨hr, h⟩ | ⟨hr, h⟩ <;> rw [h, executeFault]
    · rw [rangeFault_none (by omega)]; rfl
    · rw [rangeFault_some (by omega) (by omega)]
  | waitKey x =>
    simp only [exec, execWaitKey, commitPure, State.advance_keys, resultOf, executeFault]
    cases lowestKey s.keys with
    | some k => rfl
    | none => simp [State.jump, State.advance]
  | _ => rfl

/-- A fault that is due is one of the instruction's own, with an `info` of its kind. -/
theorem executeFault_sound {i : Instr} {s : State} {trap : Trap} (h : executeFault i s = some trap) :
    trap.cause ∈ causesOf i ∧ infoFits trap.cause trap.info = true := by
  cases i <;> simp only [executeFault, rangeFault, aliasFault, keyFault, Option.ite_none_right_eq_some,
    Option.some.injEq, reduceCtorEq] at h
  all_goals
    obtain ⟨hc, rfl⟩ := h
    simp_all [causesOf, infoFits]

/-- An instruction answers its result, or one of its own faults. -/
theorem exec_cases (i : Instr) (s : State) :
    exec i s = .next (resultOf i s) ∨
    ∃ trap : Trap, exec i s = .next (takeFault (some (encode i)) trap s) ∧
      trap.cause ∈ causesOf i ∧ infoFits trap.cause trap.info = true := by
  rw [exec_eq]
  cases h : executeFault i s with
  | none => exact .inl rfl
  | some trap => exact .inr ⟨trap, rfl, executeFault_sound h⟩

/-- An instruction that answers a next state left its result or took one of its own faults. -/
theorem next_cases {i : Instr} {s t : State} (h : exec i s = .next t) :
    t = resultOf i s ∨
    ∃ trap : Trap, t = takeFault (some (encode i)) trap s ∧
      trap.cause ∈ causesOf i ∧ infoFits trap.cause trap.info = true := by
  rcases exec_cases i s with he | ⟨trap, he, hc⟩ <;> rw [h] at he <;> cases he
  · exact .inl rfl
  · exact .inr ⟨trap, rfl, hc⟩

/-- No instruction's own result touches the fault status. -/
theorem fault_resultOf (i : Instr) (s : State) : (resultOf i s).fault = s.fault := by
  cases i <;> simp only [resultOf, skipIf] <;> first | rfl | simp | skip
  all_goals split <;> rfl

/-- Everything a STEP can answer with a next state: a fetch or decode fault taken, or what the fetched
instruction answers. -/
theorem step_cases {s t : State} (h : step s = .next t) :
    s.fault = none ∧
    ((0xFFE < s.pc.toNat ∧ t = takeFault none ⟨.fetchOutOfRange, some (max s.pc.toNat 0x1000)⟩ s) ∨
     (s.pc.toNat ≤ 0xFFE ∧ t = takeFault (some s.fetchedWord) ⟨.decodeError, none⟩ s) ∨
     (∃ i, s.pc.toNat ≤ 0xFFE ∧ decode s.fetchedWord = .ok i ∧ exec i s = .next t)) := by
  unfold step State.halted at h
  split at h
  · cases h
  · rename_i hf
    refine ⟨by simpa using hf, ?_⟩
    rcases fetchDecode_cases s with ⟨hpc, hd⟩ | ⟨hpc, _, hd⟩ | ⟨i, hpc, hi, hd⟩ <;> rw [hd] at h
    · cases h
      exact .inl ⟨hpc, rfl⟩
    · cases h
      exact .inr (.inl ⟨hpc, rfl⟩)
    · exact .inr (.inr ⟨i, hpc, hi, h⟩)

end Sys2Proof.Safety
end

