-- ==== Sys2Proof/Laws/PerInstr.lean ====
section
/-! SUPPORT. Per-instruction statements about instructions as syntax. -/

namespace Sys2Proof.Laws

/-- An instruction's fields are in range (R101), and its word is none of the illegal words that R111 lists. -/
def LegalEncoding.Statement (i : Instr) : Prop := i.wellFormed = true ∧ legalWord (encode i) = true

theorem packXKK_toNat (f : BitVec 4) (x : Reg) (kk : Byte) :
    (packXKK f x kk).toNat = f.toNat * 4096 + x.toNat * 256 + kk.toNat := by
  have := kk.isLt; have := x.isLt
  simp only [packXKK, BitVec.toNat_append]
  rw [← Nat.shiftLeft_add_eq_or_of_lt (by omega), ← Nat.shiftLeft_add_eq_or_of_lt (by omega)]
  simp only [Nat.shiftLeft_eq]
  omega

theorem packXYN_toNat (f : BitVec 4) (x y : Reg) (n : BitVec 4) :
    (packXYN f x y n).toNat = f.toNat * 4096 + x.toNat * 256 + y.toNat * 16 + n.toNat := by
  have := n.isLt; have := y.isLt; have := x.isLt
  simp only [packXYN, BitVec.toNat_append]
  rw [← Nat.shiftLeft_add_eq_or_of_lt (by omega), ← Nat.shiftLeft_add_eq_or_of_lt (by omega),
    ← Nat.shiftLeft_add_eq_or_of_lt (by omega)]
  simp only [Nat.shiftLeft_eq]
  omega

theorem packNNN_toNat (f : BitVec 4) (nnn : Addr) : (packNNN f nnn).toNat = f.toNat * 4096 + nnn.toNat := by
  have := nnn.isLt
  simp only [packNNN, BitVec.toNat_append]
  rw [← Nat.shiftLeft_add_eq_or_of_lt (by omega)]
  simp only [Nat.shiftLeft_eq]

/-! What `legalWord` looks at in a packed word. -/

theorem packXKK_family (f : BitVec 4) (x : Reg) (kk : Byte) : (packXKK f x kk).toNat / 0x1000 = f.toNat := by
  rw [packXKK_toNat]; have := kk.isLt; have := x.isLt; omega

theorem packXKK_low (f : BitVec 4) (x : Reg) (kk : Byte) : (packXKK f x kk).toNat % 0x100 = kk.toNat := by
  rw [packXKK_toNat]; have := kk.isLt; omega

theorem packXYN_family (f : BitVec 4) (x y : Reg) (n : BitVec 4) :
    (packXYN f x y n).toNat / 0x1000 = f.toNat := by
  rw [packXYN_toNat]; have := n.isLt; have := y.isLt; have := x.isLt; omega

theorem packXYN_low (f : BitVec 4) (x y : Reg) (n : BitVec 4) : (packXYN f x y n).toNat % 0x10 = n.toNat := by
  rw [packXYN_toNat]; have := n.isLt; omega

theorem packNNN_family (f : BitVec 4) (nnn : Addr) : (packNNN f nnn).toNat / 0x1000 = f.toNat := by
  rw [packNNN_toNat]; have := nnn.isLt; omega

/-- One lemma per shape: a packed word with these opcode bits is legal. -/
theorem legal_packXKK (f : BitVec 4) (x : Reg) (kk : Byte)
    (h : f = 3 ∨ f = 4 ∨ f = 6 ∨ f = 7 ∨ f = 0xC) : legalWord (packXKK f x kk) = true := by
  simp only [legalWord, packXKK_family, packXKK_low]
  rcases h with rfl | rfl | rfl | rfl | rfl <;> simp

theorem legal_packXKK_low (f : BitVec 4) (x : Reg) (kk : Byte)
    (h : (f = 0xE ∧ kk.toNat ∈ [0x9E, 0xA1]) ∨
      (f = 0xF ∧ kk.toNat ∈ [0x07, 0x0A, 0x15, 0x18, 0x1E, 0x29, 0x33, 0x55, 0x65])) :
    legalWord (packXKK f x kk) = true := by
  simp only [legalWord, packXKK_family, packXKK_low]
  rcases h with ⟨rfl, h⟩ | ⟨rfl, h⟩ <;> simpa using h

theorem legal_packXYN (f : BitVec 4) (x y : Reg) (n : BitVec 4)
    (h : ((f = 5 ∨ f = 9) ∧ n = 0) ∨ f = 0xD ∨ (f = 8 ∧ n ∈ [0#4, 1#4, 2#4, 3#4, 4#4, 5#4, 6#4, 7#4, 14#4])) :
    legalWord (packXYN f x y n) = true := by
  simp only [legalWord, packXYN_family, packXYN_low]
  rcases h with ⟨rfl | rfl, rfl⟩ | rfl | ⟨rfl, h⟩
  · simp
  · simp
  · simp
  · simp only [List.mem_cons, List.not_mem_nil, or_false] at h
    rcases h with rfl | rfl | rfl | rfl | rfl | rfl | rfl | rfl | rfl <;> simp

theorem legal_packNNN (f : BitVec 4) (nnn : Addr) (h : f = 1 ∨ f = 2 ∨ f = 0xA ∨ f = 0xB) :
    legalWord (packNNN f nnn) = true := by
  simp only [legalWord, packNNN_family]
  rcases h with rfl | rfl | rfl | rfl <;> simp

/-- The field types have the widths of R101, so every instruction is well-formed. -/
theorem wellFormed_all (i : Instr) : i.wellFormed = true := by
  cases i <;> simp only [Instr.wellFormed, Bool.and_eq_true, decide_eq_true_eq] <;>
    (repeat' apply And.intro) <;> exact BitVec.isLt _

theorem LegalEncoding.cls : LegalEncoding.Statement Instr.cls :=
  ⟨wellFormed_all _, by decide⟩

theorem LegalEncoding.ret : LegalEncoding.Statement Instr.ret :=
  ⟨wellFormed_all _, by decide⟩

theorem LegalEncoding.jp (nnn : Addr) : LegalEncoding.Statement (Instr.jp nnn) :=
  ⟨wellFormed_all _, legal_packNNN _ _ (by decide)⟩

theorem LegalEncoding.call (nnn : Addr) : LegalEncoding.Statement (Instr.call nnn) :=
  ⟨wellFormed_all _, legal_packNNN _ _ (by decide)⟩

theorem LegalEncoding.seImm (x : Reg) (kk : Byte) : LegalEncoding.Statement (Instr.seImm x kk) :=
  ⟨wellFormed_all _, legal_packXKK _ _ _ (by decide)⟩

theorem LegalEncoding.sneImm (x : Reg) (kk : Byte) : LegalEncoding.Statement (Instr.sneImm x kk) :=
  ⟨wellFormed_all _, legal_packXKK _ _ _ (by decide)⟩

theorem LegalEncoding.seReg (x y : Reg) : LegalEncoding.Statement (Instr.seReg x y) :=
  ⟨wellFormed_all _, legal_packXYN _ _ _ _ (by decide)⟩

theorem LegalEncoding.ldImm (x : Reg) (kk : Byte) : LegalEncoding.Statement (Instr.ldImm x kk) :=
  ⟨wellFormed_all _, legal_packXKK _ _ _ (by decide)⟩

theorem LegalEncoding.addImm (x : Reg) (kk : Byte) : LegalEncoding.Statement (Instr.addImm x kk) :=
  ⟨wellFormed_all _, legal_packXKK _ _ _ (by decide)⟩

theorem LegalEncoding.ldReg (x y : Reg) : LegalEncoding.Statement (Instr.ldReg x y) :=
  ⟨wellFormed_all _, legal_packXYN _ _ _ _ (by decide)⟩

theorem LegalEncoding.orReg (x y : Reg) : LegalEncoding.Statement (Instr.orReg x y) :=
  ⟨wellFormed_all _, legal_packXYN _ _ _ _ (by decide)⟩

theorem LegalEncoding.andReg (x y : Reg) : LegalEncoding.Statement (Instr.andReg x y) :=
  ⟨wellFormed_all _, legal_packXYN _ _ _ _ (by decide)⟩

theorem LegalEncoding.xorReg (x y : Reg) : LegalEncoding.Statement (Instr.xorReg x y) :=
  ⟨wellFormed_all _, legal_packXYN _ _ _ _ (by decide)⟩

theorem LegalEncoding.addReg (x y : Reg) : LegalEncoding.Statement (Instr.addReg x y) :=
  ⟨wellFormed_all _, legal_packXYN _ _ _ _ (by decide)⟩

theorem LegalEncoding.subReg (x y : Reg) : LegalEncoding.Statement (Instr.subReg x y) :=
  ⟨wellFormed_all _, legal_packXYN _ _ _ _ (by decide)⟩

theorem LegalEncoding.shr (x y : Reg) : LegalEncoding.Statement (Instr.shr x y) :=
  ⟨wellFormed_all _, legal_packXYN _ _ _ _ (by decide)⟩

theorem LegalEncoding.subn (x y : Reg) : LegalEncoding.Statement (Instr.subn x y) :=
  ⟨wellFormed_all _, legal_packXYN _ _ _ _ (by decide)⟩

theorem LegalEncoding.shl (x y : Reg) : LegalEncoding.Statement (Instr.shl x y) :=
  ⟨wellFormed_all _, legal_packXYN _ _ _ _ (by decide)⟩

theorem LegalEncoding.sneReg (x y : Reg) : LegalEncoding.Statement (Instr.sneReg x y) :=
  ⟨wellFormed_all _, legal_packXYN _ _ _ _ (by decide)⟩

theorem LegalEncoding.ldI (nnn : Addr) : LegalEncoding.Statement (Instr.ldI nnn) :=
  ⟨wellFormed_all _, legal_packNNN _ _ (by decide)⟩

theorem LegalEncoding.jpV0 (nnn : Addr) : LegalEncoding.Statement (Instr.jpV0 nnn) :=
  ⟨wellFormed_all _, legal_packNNN _ _ (by decide)⟩

theorem LegalEncoding.rnd (x : Reg) (kk : Byte) : LegalEncoding.Statement (Instr.rnd x kk) :=
  ⟨wellFormed_all _, legal_packXKK _ _ _ (by decide)⟩

theorem LegalEncoding.drw (x y : Reg) (n : Rows) : LegalEncoding.Statement (Instr.drw x y n) :=
  ⟨wellFormed_all _, legal_packXYN _ _ _ _ (by simp)⟩

theorem LegalEncoding.skp (x : Reg) : LegalEncoding.Statement (Instr.skp x) :=
  ⟨wellFormed_all _, legal_packXKK_low _ _ _ (by decide)⟩

theorem LegalEncoding.sknp (x : Reg) : LegalEncoding.Statement (Instr.sknp x) :=
  ⟨wellFormed_all _, legal_packXKK_low _ _ _ (by decide)⟩

theorem LegalEncoding.readDT (x : Reg) : LegalEncoding.Statement (Instr.readDT x) :=
  ⟨wellFormed_all _, legal_packXKK_low _ _ _ (by decide)⟩

theorem LegalEncoding.setDT (x : Reg) : LegalEncoding.Statement (Instr.setDT x) :=
  ⟨wellFormed_all _, legal_packXKK_low _ _ _ (by decide)⟩

theorem LegalEncoding.setST (x : Reg) : LegalEncoding.Statement (Instr.setST x) :=
  ⟨wellFormed_all _, legal_packXKK_low _ _ _ (by decide)⟩

theorem LegalEncoding.addI (x : Reg) : LegalEncoding.Statement (Instr.addI x) :=
  ⟨wellFormed_all _, legal_packXKK_low _ _ _ (by decide)⟩

theorem LegalEncoding.waitKey (x : Reg) : LegalEncoding.Statement (Instr.waitKey x) :=
  ⟨wellFormed_all _, legal_packXKK_low _ _ _ (by decide)⟩

theorem LegalEncoding.ldFont (x : Reg) : LegalEncoding.Statement (Instr.ldFont x) :=
  ⟨wellFormed_all _, legal_packXKK_low _ _ _ (by decide)⟩

theorem LegalEncoding.storeBcd (x : Reg) : LegalEncoding.Statement (Instr.storeBcd x) :=
  ⟨wellFormed_all _, legal_packXKK_low _ _ _ (by decide)⟩

theorem LegalEncoding.storeRegs (x : Reg) : LegalEncoding.Statement (Instr.storeRegs x) :=
  ⟨wellFormed_all _, legal_packXKK_low _ _ _ (by decide)⟩

theorem LegalEncoding.loadRegs (x : Reg) : LegalEncoding.Statement (Instr.loadRegs x) :=
  ⟨wellFormed_all _, legal_packXKK_low _ _ _ (by decide)⟩

end Sys2Proof.Laws
end

