-- ==== Sys2Proof/Laws/Sprite.lean ====
section
/-! SUPPORT. The sprite unit said pixel by pixel: a draw XORs each pixel with the sprite bit that lands on
it, and the detector notes a bit that lands on a set pixel. -/

namespace Sys2Proof.Machine

theorem Grid.pixel_flip (g : Grid) (c r c' r' : Nat) :
    Grid.pixel (Grid.flip g c r) c' r' =
      if c = c' ∧ r = r' ∧ c < 64 ∧ r < 32 then !(Grid.pixel g c r) else Grid.pixel g c' r' := by
  unfold Grid.pixel Grid.flip
  by_cases h : c < 64 ∧ r < 32
  · by_cases h' : c' < 64 ∧ r' < 32
    · simp only [h, h', and_self, dite_true, Vector.getElem_set, and_true]
      by_cases hr : r = r'
      · subst hr
        by_cases hc : c = c' <;> simp [hc]
      · simp [hr]
    · rw [if_neg (by rintro ⟨rfl, rfl, _⟩; exact h' h)]
      simp [h']
  · rw [if_neg (by rintro ⟨_, _, hb⟩; exact h hb)]
    simp [h]

@[simp] theorem Grid.pixel_blank (c r : Nat) : Grid.pixel Grid.blank c r = false := by
  unfold Grid.pixel Grid.blank
  split <;> simp

theorem Grid.pixel_off (g : Grid) (c r : Nat) (h : ¬ (c < 64 ∧ r < 32)) : Grid.pixel g c r = false := by
  simp [Grid.pixel, h]

/-- A bit of a list of row bits placed at column `c`, row `r` lands on the grid pixel `(c', r')`. -/
def bitLands (bits : List Bool) (c r c' r' : Nat) : Bool :=
  decide (c' < 64) && decide (r' < 32) && decide (r' = r) && decide (c ≤ c') && bits.getD (c' - c) false

theorem bitLands_cons (b : Bool) (bits : List Bool) (c r c' r' : Nat) :
    bitLands (b :: bits) c r c' r' =
      (bitLands bits (c + 1) r c' r' ||
        (b && decide (c' < 64) && decide (r' < 32) && decide (r' = r) && decide (c' = c))) := by
  unfold bitLands
  by_cases h : c' = c
  · subst h
    simp
    cases b <;> simp
  · by_cases hle : c ≤ c'
    · obtain ⟨j, hj⟩ : ∃ j, c' - c = j + 1 := ⟨c' - c - 1, by omega⟩
      rw [hj, List.getD_cons_succ, show c' - (c + 1) = j by omega]
      simp [h, hle, show c + 1 ≤ c' by omega]
    · simp [h, hle, show ¬ (c + 1 ≤ c') by omega]

theorem pixel_drawBits (bits : List Bool) (c r : Nat) (acc : Grid × Bool) (c' r' : Nat) :
    Grid.pixel (drawBits bits c r acc).1 c' r' = (Grid.pixel acc.1 c' r' ^^ bitLands bits c r c' r') := by
  induction bits generalizing c acc with
  | nil => simp [drawBits, bitLands]
  | cons b bits ih =>
    cases b with
    | false => rw [drawBits, ih, bitLands_cons]; simp
    | true =>
      rw [drawBits]
      split
      · rename_i h
        have : bitLands (true :: bits) c r c' r' = false := by
          unfold bitLands
          by_cases h1 : c' < 64 <;> by_cases h2 : r' < 32 <;> by_cases h3 : r' = r <;>
            by_cases h4 : c ≤ c' <;> simp [h1, h2, h3, h4] <;> omega
        simp [this]
      · rename_i h
        rw [ih, Grid.pixel_flip, bitLands_cons]
        by_cases hc : c = c' ∧ r = r'
        · obtain ⟨rfl, rfl⟩ := hc
          have : bitLands bits (c + 1) r c r = false := by simp [bitLands]
          simp [this, show c < 64 by omega, show r < 32 by omega]
        · rw [if_neg (by tauto)]
          have : (decide (r' = r) && decide (c' = c)) = false := by
            simp only [Bool.and_eq_false_iff, decide_eq_false_iff_not]; omega
          simp [Bool.and_assoc, this]

theorem hit_drawBits (bits : List Bool) (c r : Nat) (acc : Grid × Bool) :
    (drawBits bits c r acc).2 = true ↔
      acc.2 = true ∨ ∃ c', bitLands bits c r c' r = true ∧ Grid.pixel acc.1 c' r = true := by
  induction bits generalizing c acc with
  | nil => simp [drawBits, bitLands]
  | cons b bits ih =>
    cases b with
    | false => rw [drawBits, ih]; simp [bitLands_cons]
    | true =>
      rw [drawBits]
      split
      · rename_i h
        constructor
        · exact .inl
        · rintro (h1 | ⟨c', h1, h2⟩)
          · exact h1
          · simp only [bitLands, Bool.and_eq_true, decide_eq_true_eq] at h1
            omega
      · rename_i h
        have hcr : c < 64 ∧ r < 32 := by omega
        rw [ih]
        simp only [Bool.or_eq_true]
        constructor
        · rintro ((h1 | h1) | ⟨c', h1, h2⟩)
          · exact .inl h1
          · exact .inr ⟨c, by simp [bitLands, hcr], h1⟩
          · have hle : c + 1 ≤ c' := by
              simp only [bitLands, Bool.and_eq_true, decide_eq_true_eq] at h1; omega
            rw [Grid.pixel_flip, if_neg (by omega)] at h2
            exact .inr ⟨c', by rw [bitLands_cons, h1]; rfl, h2⟩
        · rintro (h1 | ⟨c', h1, h2⟩)
          · exact .inl (.inl h1)
          · rw [bitLands_cons, Bool.or_eq_true] at h1
            rcases h1 with h1 | h1
            · have hle : c + 1 ≤ c' := by
                simp only [bitLands, Bool.and_eq_true, decide_eq_true_eq] at h1; omega
              refine .inr ⟨c', h1, ?_⟩
              rw [Grid.pixel_flip, if_neg (by omega)]
              exact h2
            · simp only [Bool.and_eq_true, decide_eq_true_eq] at h1
              exact .inl (.inr (h1.2 ▸ h2))

/-- The sprite bit that lands on the grid pixel `(c', r')` when the sprite's origin is `(c, r)` (R220, R221). -/
def spriteLands (sprite : List Byte) (c r c' r' : Nat) : Bool :=
  decide (c' < 64) && decide (r' < 32) && decide (r ≤ r') && decide (c ≤ c') && decide (c' - c < 8) &&
    (sprite.getD (r' - r) 0#8).getLsbD (7 - (c' - c))

theorem getD_spriteBits (b : Byte) (j : Nat) :
    (spriteBits b).getD j false = (decide (j < 8) && b.getLsbD (7 - j)) := by
  unfold spriteBits
  rw [List.getD_eq_getElem?_getD, List.getElem?_map]
  by_cases h : j < 8
  · rw [List.getElem?_range h]; simp [h]
  · rw [List.getElem?_eq_none (by simpa using h)]; simp [h]

theorem bitLands_spriteBits (b : Byte) (c r c' r' : Nat) :
    bitLands (spriteBits b) c r c' r' =
      (decide (c' < 64) && decide (r' < 32) && decide (r' = r) && decide (c ≤ c') && decide (c' - c < 8) &&
        b.getLsbD (7 - (c' - c))) := by
  rw [bitLands, getD_spriteBits, Bool.and_assoc, Bool.and_assoc, Bool.and_assoc, Bool.and_assoc]
  simp [Bool.and_assoc]

theorem spriteLands_cons (b : Byte) (sprite : List Byte) (c r c' r' : Nat) :
    spriteLands (b :: sprite) c r c' r' =
      (bitLands (spriteBits b) c r c' r' || spriteLands sprite c (r + 1) c' r') := by
  rw [bitLands_spriteBits]
  unfold spriteLands
  by_cases h : r' = r
  · subst h
    simp [show ¬ (r' + 1 ≤ r') by omega]
  · by_cases hle : r ≤ r'
    · obtain ⟨j, hj⟩ : ∃ j, r' - r = j + 1 := ⟨r' - r - 1, by omega⟩
      rw [hj, List.getD_cons_succ, show r' - (r + 1) = j by omega]
      simp [h, hle, show r + 1 ≤ r' by omega]
    · simp [h, hle, show ¬ (r + 1 ≤ r') by omega]

theorem bitLands_row {bits : List Bool} {c r c' r' : Nat} (h : bitLands bits c r c' r' = true) : r' = r := by
  simp only [bitLands, Bool.and_eq_true, decide_eq_true_eq] at h
  exact h.1.1.2

theorem spriteLands_row {sprite : List Byte} {c r c' r' : Nat} (h : spriteLands sprite c r c' r' = true) :
    r ≤ r' := by
  simp only [spriteLands, Bool.and_eq_true, decide_eq_true_eq] at h
  exact h.1.1.1.2

/-- Every pixel after a draw (R220 to R222). -/
theorem pixel_drawRows (sprite : List Byte) (c r : Nat) (acc : Grid × Bool) (c' r' : Nat) :
    Grid.pixel (drawRows sprite c r acc).1 c' r' =
      (Grid.pixel acc.1 c' r' ^^ spriteLands sprite c r c' r') := by
  induction sprite generalizing r acc with
  | nil => simp [drawRows, spriteLands]
  | cons b sprite ih =>
    rw [drawRows, ih, pixel_drawBits, spriteLands_cons]
    cases h1 : bitLands (spriteBits b) c r c' r'
    · simp
    · have h2 : spriteLands sprite c (r + 1) c' r' = false := by
        by_contra h
        have := spriteLands_row (Bool.not_eq_false _ ▸ h)
        have := bitLands_row h1
        omega
      simp [h2]

/-- The collision detector after a draw: some sprite bit landed on a pixel that was set before (R222). -/
theorem hit_drawRows (sprite : List Byte) (c r : Nat) (acc : Grid × Bool) :
    (drawRows sprite c r acc).2 = true ↔
      acc.2 = true ∨ ∃ c' r', spriteLands sprite c r c' r' = true ∧ Grid.pixel acc.1 c' r' = true := by
  induction sprite generalizing r acc with
  | nil => simp [drawRows, spriteLands]
  | cons b sprite ih =>
    rw [drawRows, ih, hit_drawBits]
    constructor
    · rintro ((h | ⟨c', h1, h2⟩) | ⟨c', r', h1, h2⟩)
      · exact .inl h
      · exact .inr ⟨c', r, by rw [spriteLands_cons, h1]; rfl, h2⟩
      · have hb : bitLands (spriteBits b) c r c' r' = false := by
          by_contra h
          have := bitLands_row (Bool.not_eq_false _ ▸ h)
          have := spriteLands_row h1
          omega
        rw [pixel_drawBits, hb, Bool.xor_false] at h2
        exact .inr ⟨c', r', by rw [spriteLands_cons, h1, Bool.or_true], h2⟩
    · rintro (h | ⟨c', r', h1, h2⟩)
      · exact .inl (.inl h)
      · rw [spriteLands_cons, Bool.or_eq_true] at h1
        rcases h1 with h1 | h1
        · have := bitLands_row h1
          subst this
          exact .inl (.inr ⟨c', h1, h2⟩)
        · refine .inr ⟨c', r', h1, ?_⟩
          have hb : bitLands (spriteBits b) c r c' r' = false := by
            by_contra h
            have := bitLands_row (Bool.not_eq_false _ ▸ h)
            have := spriteLands_row h1
            omega
          rw [pixel_drawBits, hb, Bool.xor_false]
          exact h2

end Sys2Proof.Machine
end

