-- ==== Sys2Proof/Tests/Slice0.lean ====
section
/-! SUPPORT. Tests. Every expected result is from the worked examples, the vectors and the programs of
spec/95_test_vectors.md (W, V, P) or from the encoding table of spec/30_encoding.md R110, as each comment says;
then the witnesses that the hypotheses of the statements can be met. -/

namespace Sys2Proof.Tests

open Sys2Proof.Machine Sys2Proof.Safety

/-! ### Helpers -/

/-- The launch state (R353) with some registers set. -/
def withRegs (regs : List (Reg × Byte)) : State := regs.foldl (fun s p => s.setReg p.1 p.2) State.reset

/-- The state after one STEP of a word placed at `PC`; the state itself if there is no next state. -/
def after (s : State) (w : Nat) : State :=
  match step (s.withFetchWord 16 w) with
  | .next t => t
  | _ => s

/-- The state after one instruction; the state itself if there is no next state. -/
def ran (i : Instr) (s : State) : State :=
  match exec i s with
  | .next t => t
  | _ => s

/-- The same state under `ALIAS_POLICY` = `refuse`. -/
def refusing (s : State) : State := { s with params := { s.params with aliasPolicy := .refuse } }

/-- The same state under `STACK_DEPTH` = `d`. -/
def bounded (d : Nat) (s : State) : State := { s with params := { s.params with stackDepth := some d } }

/-- A halted state: what the STEP of V6 leaves. -/
def haltedState : State :=
  { State.reset with
    fault := some { cause := .decodeError, pc := 0x200#16, opcode := some 0x0000#16, info := none } }

/-! ### WellFormed: for each family with illegal words, one that the check refuses (R105, R111; V6 to V13) -/


theorem test_illformed_sys :
    legalWord 0x0123#16 = false ∧ decode 0x0123#16 = .error (.illegal 0x0123#16) := by decide

theorem test_illformed_family0 :
    legalWord 0x01E0#16 = false ∧ decode 0x01E0#16 = .error (.illegal 0x01E0#16) := by decide

theorem test_illformed_family5 :
    legalWord 0x5121#16 = false ∧ decode 0x5121#16 = .error (.illegal 0x5121#16) := by decide

theorem test_illformed_family8 :
    legalWord 0x8008#16 = false ∧ decode 0x8008#16 = .error (.illegal 0x8008#16) := by decide

theorem test_illformed_family9 :
    legalWord 0x9121#16 = false ∧ decode 0x9121#16 = .error (.illegal 0x9121#16) := by decide

theorem test_illformed_familyE :
    legalWord 0xE0A0#16 = false ∧ decode 0xE0A0#16 = .error (.illegal 0xE0A0#16) := by decide

theorem test_illformed_familyF :
    legalWord 0xF0FF#16 = false ∧ decode 0xF0FF#16 = .error (.illegal 0xF0FF#16) := by decide

/-- An address of 12 bits, a byte and a register at the top of their ranges are in range (R101). -/
theorem test_wellformed_fields :
    (Instr.jp 0xFFF#12).wellFormed = true ∧ (Instr.seImm 0xF#4 0xFF#8).wellFormed = true ∧
      (Instr.drw 0xF#4 0xF#4 0xF#4).wellFormed = true := by decide

/-- Fewer than two bytes are no word (R94). -/
theorem test_truncated : decodeBytes [0x12#8] = .error .truncated := by decide

/-! ### Decoding: one word a constructor, written out bit by bit from R110 (family, x, y, n) -/

theorem test_decode_cls : decode 0b0000_0000_1110_0000#16 = .ok (.cls) := by decide
theorem test_decode_ret : decode 0b0000_0000_1110_1110#16 = .ok (.ret) := by decide
theorem test_decode_jp : decode 0b0001_1010_1011_1100#16 = .ok (.jp 0xABC#12) := by decide
theorem test_decode_call : decode 0b0010_0001_0010_0011#16 = .ok (.call 0x123#12) := by decide
theorem test_decode_seImm : decode 0b0011_1100_0101_1010#16 = .ok (.seImm 0xC#4 0x5A#8) := by decide
theorem test_decode_sneImm : decode 0b0100_0111_1111_0000#16 = .ok (.sneImm 0x7#4 0xF0#8) := by decide
theorem test_decode_seReg : decode 0b0101_0001_0010_0000#16 = .ok (.seReg 0x1#4 0x2#4) := by decide
theorem test_decode_ldImm : decode 0b0110_1010_0100_0010#16 = .ok (.ldImm 0xA#4 0x42#8) := by decide
theorem test_decode_addImm : decode 0b0111_0000_0000_0011#16 = .ok (.addImm 0x0#4 0x03#8) := by decide
theorem test_decode_ldReg : decode 0b1000_0001_0010_0000#16 = .ok (.ldReg 0x1#4 0x2#4) := by decide
theorem test_decode_orReg : decode 0b1000_0011_0100_0001#16 = .ok (.orReg 0x3#4 0x4#4) := by decide
theorem test_decode_andReg : decode 0b1000_0101_0110_0010#16 = .ok (.andReg 0x5#4 0x6#4) := by decide
theorem test_decode_xorReg : decode 0b1000_0111_1000_0011#16 = .ok (.xorReg 0x7#4 0x8#4) := by decide
theorem test_decode_addReg : decode 0b1000_1001_1010_0100#16 = .ok (.addReg 0x9#4 0xA#4) := by decide
theorem test_decode_subReg : decode 0b1000_1011_1100_0101#16 = .ok (.subReg 0xB#4 0xC#4) := by decide
theorem test_decode_shr : decode 0b1000_1101_1110_0110#16 = .ok (.shr 0xD#4 0xE#4) := by decide
theorem test_decode_subn : decode 0b1000_1111_0000_0111#16 = .ok (.subn 0xF#4 0x0#4) := by decide
theorem test_decode_shl : decode 0b1000_0001_0000_1110#16 = .ok (.shl 0x1#4 0x0#4) := by decide
theorem test_decode_sneReg : decode 0b1001_0010_0001_0000#16 = .ok (.sneReg 0x2#4 0x1#4) := by decide
theorem test_decode_ldI : decode 0b1010_0011_0010_0001#16 = .ok (.ldI 0x321#12) := by decide
theorem test_decode_jpV0 : decode 0b1011_1111_0000_0001#16 = .ok (.jpV0 0xF01#12) := by decide
theorem test_decode_rnd : decode 0b1100_0011_0000_1111#16 = .ok (.rnd 0x3#4 0x0F#8) := by decide
theorem test_decode_drw : decode 0b1101_0001_0010_0101#16 = .ok (.drw 0x1#4 0x2#4 0x5#4) := by decide
theorem test_decode_skp : decode 0b1110_0010_1001_1110#16 = .ok (.skp 0x2#4) := by decide
theorem test_decode_sknp : decode 0b1110_0010_1010_0001#16 = .ok (.sknp 0x2#4) := by decide
theorem test_decode_readDT : decode 0b1111_0011_0000_0111#16 = .ok (.readDT 0x3#4) := by decide
theorem test_decode_setDT : decode 0b1111_0011_0001_0101#16 = .ok (.setDT 0x3#4) := by decide
theorem test_decode_setST : decode 0b1111_0011_0001_1000#16 = .ok (.setST 0x3#4) := by decide
theorem test_decode_addI : decode 0b1111_0001_0001_1110#16 = .ok (.addI 0x1#4) := by decide
theorem test_decode_waitKey : decode 0b1111_0101_0000_1010#16 = .ok (.waitKey 0x5#4) := by decide
theorem test_decode_ldFont : decode 0b1111_0111_0010_1001#16 = .ok (.ldFont 0x7#4) := by decide
theorem test_decode_storeBcd : decode 0b1111_1001_0011_0011#16 = .ok (.storeBcd 0x9#4) := by decide
theorem test_decode_storeRegs : decode 0b1111_1111_0101_0101#16 = .ok (.storeRegs 0xF#4) := by decide
theorem test_decode_loadRegs : decode 0b1111_0010_0110_0101#16 = .ok (.loadRegs 0x2#4) := by decide

/-- The fetch order: the high byte at the lower address (R66, R91; V1). -/
theorem test_decode_bytes : decodeBytes [0x12#8, 0x34#8] = .ok (.jp 0x234#12) := by decide

/-! ### One STEP from the launch state unless the vector says otherwise -/

/-- V2: an odd PC fetches. -/
theorem test_fetch_odd_pc :
    (after { State.reset with pc := 0x201#16 } 0x6007).pc = 0x203#16 := by decide

/-- V3: the last legal fetch, at FFE. -/
theorem test_fetch_last :
    (after { State.reset with pc := 0xFFE#16 } 0x1200).pc = 0x200#16 := by decide

/-- V4. -/
theorem test_fetch_fff :
    (after { State.reset with pc := 0xFFF#16 } 0x1200).fault =
      some { cause := .fetchOutOfRange, pc := 0xFFF#16, opcode := none, info := some 0x1000 } := by decide

/-- V45: past 0x1000 the info is PC itself. -/
theorem test_fetch_beyond :
    (after { State.reset with pc := 0x1002#16 } 0x1200).fault =
      some { cause := .fetchOutOfRange, pc := 0x1002#16, opcode := none, info := some 0x1002 } := by decide

/-- V9: 5121 at 200. -/
theorem test_fault_illegal :
    after State.reset 0x5121 = { State.reset.withFetchWord 16 0x5121 with
      fault := some { cause := .decodeError, pc := 0x200#16, opcode := some 0x5121#16, info := none } } := by decide

/-- V14. -/
theorem test_halted_refused :
    step haltedState = .refused .halted := rfl

/-- V20, W6. -/
theorem test_cls :
    let s : State := { State.reset with disp := Grid.flip (Grid.flip Grid.blank 5 5) 63 31 }
    Grid.pixel s.disp 5 5 = true ∧ Grid.pixel (after s 0x00E0).disp 5 5 = false ∧
      Grid.pixel (after s 0x00E0).disp 63 31 = false ∧ (after s 0x00E0).drawFlag = true := by decide

/-- V24: last in, first out (the top of the stack stands first). -/
theorem test_ret :
    let t := after { State.reset with stack := [0x30A#16, 0x206#16] } 0x00EE
    t.pc = 0x30A#16 ∧ t.stack = [0x206#16] := by decide

/-- V22. -/
theorem test_ret_underflow :
    (after State.reset 0x00EE).fault =
      some { cause := .stackUnderflow, pc := 0x200#16, opcode := some 0x00EE#16, info := none } := by decide

/-- V32: an odd target. -/
theorem test_jp :
    (after State.reset 0x1333).pc = 0x333#16 := by decide

/-- V33. -/
theorem test_call :
    let t := after { State.reset with pc := 0x300#16 } 0x2FFE
    t.pc = 0xFFE#16 ∧ t.stack = [0x302#16] := by decide

/-- V35. -/
theorem test_call_overflow :
    (after (bounded 2 { State.reset with stack := [0x204#16, 0x202#16] }) 0x2400).fault =
      some { cause := .stackOverflow, pc := 0x200#16, opcode := some 0x2400#16, info := none } := by decide

/-- V37, V38. -/
theorem test_seImm :
    (after (withRegs [(0x3#4, 0x12#8)]) 0x3312).pc = 0x204#16 ∧ (after (withRegs [(0x3#4, 0x12#8)]) 0x3313).pc = 0x202#16 := by decide

/-- V40, V41. -/
theorem test_sneImm :
    (after (withRegs [(0x3#4, 0x12#8)]) 0x4313).pc = 0x204#16 ∧ (after (withRegs [(VF, 1#8)]) 0x4F01).pc = 0x202#16 := by decide

/-- V42, V44. -/
theorem test_seReg :
    (after (withRegs [(0x1#4, 7#8), (0x2#4, 7#8)]) 0x5120).pc = 0x204#16 ∧
      (after (withRegs [(0x1#4, 3#8), (0x2#4, 4#8)]) 0x5120).pc = 0x202#16 := by decide

/-- V45: the skip itself is not checked. -/
theorem test_skip_at_end :
    (after { State.reset with pc := 0xFFE#16 } 0x3000).pc = 0x1002#16 := by decide

/-- V50, W1. -/
theorem test_ldImm :
    (after State.reset 0x6A42).reg 0xA#4 = 0x42#8 := by decide

/-- V52: wraps, VF unchanged. -/
theorem test_addImm :
    let t := after (withRegs [(0x0#4, 0xFE#8), (VF, 7#8)]) 0x7003
    t.reg 0x0#4 = 0x01#8 ∧ t.reg VF = 7#8 := by decide

/-- V60. -/
theorem test_ldReg :
    (after (withRegs [(0x1#4, 0x44#8), (0x2#4, 0x9C#8)]) 0x8120).reg 0x1#4 = 0x9C#8 := by decide

/-- V61. -/
theorem test_orReg :
    let t := after (withRegs [(0x0#4, 0x0F#8), (0x1#4, 0xF0#8), (VF, 7#8)]) 0x8011
    t.reg 0x0#4 = 0xFF#8 ∧ t.reg VF = 7#8 := by decide

/-- V62. -/
theorem test_andReg :
    let t := after (withRegs [(0x0#4, 0x3C#8), (0x1#4, 0x0F#8), (VF, 7#8)]) 0x8012
    t.reg 0x0#4 = 0x0C#8 ∧ t.reg VF = 7#8 := by decide

/-- V63. -/
theorem test_xorReg :
    (after (withRegs [(0x0#4, 0x3C#8), (0x1#4, 0x3C#8)]) 0x8013).reg 0x0#4 = 0x00#8 := by decide

/-- V66. -/
theorem test_addReg :
    let t := after (withRegs [(0x0#4, 0xFF#8), (0x1#4, 0xFF#8)]) 0x8014
    t.reg 0x0#4 = 0xFE#8 ∧ t.reg VF = 1#8 := by decide

/-- V85 under both policies. -/
theorem test_addReg_vf :
    let s := withRegs [(VF, 0x02#8), (0x1#4, 0xFF#8)]
    (after s 0x8F14).reg VF = 0x01#8 ∧ (after (refusing s) 0x8F14).fault =
      some { cause := .aliasRefused, pc := 0x200#16, opcode := some 0x8F14#16, info := none } := by decide

/-- V70, V71: equal operands give no flag. -/
theorem test_subReg :
    let t := after (withRegs [(0x0#4, 5#8), (0x1#4, 5#8)]) 0x8015
    let u := after (withRegs [(0x1#4, 1#8)]) 0x8015
    t.reg 0x0#4 = 0#8 ∧ t.reg VF = 0#8 ∧ u.reg 0x0#4 = 0xFF#8 ∧ u.reg VF = 0#8 := by decide

/-- V88, V90. -/
theorem test_subReg_vf :
    (after (withRegs [(VF, 5#8), (0x1#4, 2#8)]) 0x8F15).reg VF = 0xFF#8 ∧
      (after (withRegs [(VF, 1#8), (0x1#4, 5#8)]) 0x81F5).reg 0x1#4 = 0x04#8 := by decide

/-- V75: y is ignored. -/
theorem test_shr :
    let t := after (withRegs [(0x0#4, 5#8), (0x7#4, 0xAA#8)]) 0x8076
    t.reg 0x0#4 = 2#8 ∧ t.reg VF = 1#8 := by decide

/-- V93. -/
theorem test_shr_vf :
    (after (withRegs [(VF, 0xFF#8)]) 0x8F06).reg VF = 0#8 := by decide

/-- V76, V78. -/
theorem test_subn :
    let t := after (withRegs [(0x1#4, 0x0A#8), (0x2#4, 0x64#8)]) 0x8127
    t.reg 0x1#4 = 0x5A#8 ∧ t.reg VF = 1#8 ∧ (after (withRegs [(0x0#4, 1#8)]) 0x8017).reg VF = 0#8 := by decide

/-- V94, V95. -/
theorem test_subn_vf :
    (after (withRegs [(VF, 2#8), (0x1#4, 5#8)]) 0x8F17).reg VF = 4#8 ∧
      (after (withRegs [(VF, 5#8), (0x1#4, 2#8)]) 0x81F7).reg 0x1#4 = 0xFF#8 := by decide

/-- V79, V80: the flag is 0x80, not 1. -/
theorem test_shl :
    let t := after (withRegs [(0x0#4, 0x80#8)]) 0x801E
    t.reg 0x0#4 = 0#8 ∧ t.reg VF = 0x80#8 ∧ (after (withRegs [(0x0#4, 0x7F#8), (VF, 1#8)]) 0x801E).reg VF = 0#8 := by decide

/-- V96. -/
theorem test_shl_vf :
    (after (withRegs [(VF, 0xFF#8)]) 0x8F0E).reg VF = 0#8 := by decide

/-- V100, V101. -/
theorem test_sneReg :
    (after (withRegs [(0x1#4, 1#8), (0x2#4, 2#8)]) 0x9120).pc = 0x204#16 ∧
      (after (withRegs [(0x1#4, 3#8)]) 0x9110).pc = 0x202#16 := by decide

/-- V103. -/
theorem test_ldI :
    (after { State.reset with index := 0xF0FF#16 } 0xAFFF).index = 0x0FFF#16 := by decide

/-- V105, V106: not masked. -/
theorem test_jpV0 :
    (after (withRegs [(0x0#4, 0xFF#8)]) 0xB300).pc = 0x3FF#16 ∧ (after (withRegs [(0x0#4, 1#8)]) 0xBFFF).pc = 0x1000#16 := by decide

/-- V108: any draw and kk = 00. -/
theorem test_rnd_zero :
    ∀ s : State, (ran (.rnd 0x3#4 0x00#8) s).reg 0x3#4 = 0#8 := fun s => by simp [ran, exec, execRnd, commitPure]

/-- V109: kk = FF is the draw itself, whatever it is. -/
theorem test_rnd_all :
    (ran (.rnd 0x3#4 0xFF#8) State.reset).reg 0x3#4 = Config.randomByte 0 := by
  show ((State.reset.advance).setReg 0x3#4 _).reg 0x3#4 = _
  rw [State.reg_setReg_same]
  exact BitVec.and_allOnes

/-- V111 (columns 64 and 65 are clipped, not wrapped) and V120, V121 (every byte is range-checked). -/
theorem test_drw_clip_and_range :
    let t := after { withRegs [(0x0#4, 0x3E#8)] with index := 0x050#16 } 0xD015
    let out : State := { withRegs [(0x1#4, 0x1F#8)] with index := 0xFFF#16 }
    Grid.pixel t.disp 62 2 = true ∧ Grid.pixel t.disp 63 0 = true ∧ Grid.pixel t.disp 63 2 = false ∧
      Grid.pixel t.disp 0 0 = false ∧ t.reg VF = 0#8 ∧ (after out 0xD012).fault =
        some { cause := .dataOutOfRange, pc := 0x200#16, opcode := some 0xD012#16, info := some 0x1000 } := by decide

/-- V122 with (5,3) already set: the old VF is the column; then R222. -/
theorem test_drw_collision :
    let s : State := { (withRegs [(VF, 5#8), (0x0#4, 3#8)]).setByte 0x300 0x80#8 with index := 0x300#16 }
    let t := after s 0xDF01
    let u := after { s with disp := Grid.flip Grid.blank 5 3 } 0xDF01
    Grid.pixel t.disp 5 3 = true ∧ t.reg VF = 0#8 ∧ Grid.pixel u.disp 5 3 = false ∧ u.reg VF = 1#8 := by decide

/-- V130, V136. -/
theorem test_skp :
    (after (hostSetKeys 0x0020#16 (withRegs [(0x2#4, 5#8)])) 0xE29E).pc = 0x204#16 ∧
      (after (hostSetKeys 0x8000#16 (withRegs [(0x2#4, 0xF#8)])) 0xE29E).pc = 0x204#16 := by decide

/-- V134. -/
theorem test_skp_bad_key :
    (after (withRegs [(0x2#4, 0x10#8)]) 0xE29E).fault =
      some { cause := .keyIndexOutOfRange, pc := 0x200#16, opcode := some 0xE29E#16, info := some 0x10 } := by decide

/-- V132, V133. -/
theorem test_sknp :
    (after (hostSetKeys 0x0020#16 (withRegs [(0x2#4, 5#8)])) 0xE2A1).pc = 0x202#16 ∧
      (after (withRegs [(0x2#4, 5#8)]) 0xE2A1).pc = 0x204#16 := by decide

/-- V140. -/
theorem test_readDT :
    (after { State.reset with dt := 0x3C#8 } 0xF307).reg 0x3#4 = 0x3C#8 := by decide

/-- V141. -/
theorem test_setDT :
    (after (withRegs [(0x3#4, 0x3C#8)]) 0xF315).dt = 0x3C#8 := by decide

/-- V143. -/
theorem test_setST :
    (after (withRegs [(0x3#4, 2#8)]) 0xF318).st = 2#8 ∧ (after (withRegs [(0x3#4, 2#8)]) 0xF318).soundOn = true := by decide

/-- V144, V145: the threshold is 1000 decimal. -/
theorem test_addI :
    let t := after { withRegs [(0x1#4, 8#8)] with index := 0x3E0#16 } 0xF11E
    let u := after { withRegs [(0x1#4, 9#8)] with index := 0x3E0#16 } 0xF11E
    t.index = 0x3E8#16 ∧ t.reg VF = 0#8 ∧ u.index = 0x3E9#16 ∧ u.reg VF = 1#8 := by decide

/-- V147. -/
theorem test_addI_overflow :
    (after { withRegs [(0x1#4, 1#8)] with index := 0xFFFF#16 } 0xF11E).fault =
      some { cause := .indexOverflow, pc := 0x200#16, opcode := some 0xF11E#16, info := some 0x10000 } := by decide

/-- V150, W7: the lowest key. -/
theorem test_waitKey :
    let t := after (hostSetKeys 0x0208#16 State.reset) 0xF50A
    t.reg 0x5#4 = 3#8 ∧ t.pc = 0x202#16 := by decide

/-- V151: no change. -/
theorem test_waitKey_none :
    after State.reset 0xF50A = State.reset.withFetchWord 16 0xF50A := by decide

/-- V153, and only the low nibble counts (R258). -/
theorem test_ldFont :
    (after (withRegs [(0x0#4, 0x1A#8)]) 0xF029).index = 0x082#16 := by decide

/-- V155. -/
theorem test_storeBcd :
    let t := after { withRegs [(0x0#4, 0xFF#8)] with index := 0x300#16 } 0xF033
    t.byteAt 0x300 = 2#8 ∧ t.byteAt 0x301 = 5#8 ∧ t.byteAt 0x302 = 5#8 := by decide

/-- V159, V160. -/
theorem test_storeBcd_edge :
    (after { withRegs [(0x0#4, 7#8)] with index := 0xFFD#16 } 0xF033).byteAt 0xFFF = 7#8 ∧
      (after { withRegs [(0x0#4, 7#8)] with index := 0xFFE#16 } 0xF033).fault =
        some { cause := .dataOutOfRange, pc := 0x200#16, opcode := some 0xF033#16, info := some 0x1000 } := by decide

/-- V161. -/
theorem test_storeRegs :
    let t := after { withRegs [(0x0#4, 1#8), (0x1#4, 2#8), (0x2#4, 3#8), (0x3#4, 4#8)] with index := 0x300#16 } 0xF255
    t.byteAt 0x300 = 1#8 ∧ t.byteAt 0x302 = 3#8 ∧ t.byteAt 0x303 = 0#8 ∧ t.index = 0x300#16 := by decide

/-- V162, V163. -/
theorem test_storeRegs_edge :
    (after { withRegs [(VF, 0xAB#8)] with index := 0xFF0#16 } 0xFF55).byteAt 0xFFF = 0xAB#8 ∧
      (after { withRegs [(VF, 0xAB#8)] with index := 0xFF1#16 } 0xFF55).fault =
        some { cause := .dataOutOfRange, pc := 0x200#16, opcode := some 0xFF55#16, info := some 0x1000 } := by decide

/-- V165: the default font. -/
theorem test_loadRegs :
    let t := after { State.reset with index := 0x050#16 } 0xFF65
    t.reg 0x0#4 = 0xF0#8 ∧ t.reg 0x5#4 = 0x20#8 ∧ t.reg 0xD#4 = 0x80#8 ∧ t.reg VF = 0xF0#8 := by decide

/-- V166. -/
theorem test_loadRegs_edge :
    (after { State.reset with index := 0x1000#16 } 0xF065).fault =
      some { cause := .dataOutOfRange, pc := 0x200#16, opcode := some 0xF065#16, info := some 0x1000 } := by decide

/-! ### Host operations -/

/-- V170, V171: saturating. -/
theorem test_tick :
    (hostTick { State.reset with dt := 2#8 }).dt = 1#8 ∧ (hostTick { State.reset with dt := 2#8 }).st = 0#8 ∧
      (hostTick { State.reset with st := 1#8 }).st = 0#8 := by decide

/-- V172. -/
theorem test_tick_halted :
    (hostOp .tick { haltedState with dt := 3#8 }).1.dt = 2#8 := by decide

/-- V173. -/
theorem test_setKeys :
    (hostSetKeys 0x8201#16 State.reset).keys.toList =
      [true, false, false, false, false, false, false, false, false, true, false, false, false, false, false, true] := by decide

/-- V174. -/
theorem test_reset :
    (hostOp .reset haltedState).1 = State.reset := by decide

/-- V175, W10. -/
theorem test_load_error :
    hostOp (.load (List.replicate 3585 0#8)) State.reset = (State.reset, .loadError) := by
  unfold hostOp hostLoad
  simp only [List.length_replicate]
  rfl

/-- V1 through LOAD (R352): the bytes stand from 0x200 on. -/
theorem test_load :
    let t := (hostOp (.load [0x12#8, 0x34#8]) State.reset).1
    t.byteAt 0x200 = 0x12#8 ∧ t.byteAt 0x201 = 0x34#8 ∧ t.byteAt 0x202 = 0#8 := by decide

/-- V176. -/
theorem test_clearDraw :
    (hostOp .clearDraw { State.reset with drawFlag := true }).1.drawFlag = false := by decide

/-! ### Memory's canonical form -/

/-- A cell equal to the reset contents, a repeated address, an address off the end: each is refused. -/
theorem test_memory_ill_formed :
    Memory.wf (initialByte defaultParams) [(0x300, 0#8)] = false ∧
      Memory.wf (initialByte defaultParams) [(0x300, 1#8), (0x300, 2#8)] = false ∧
      Memory.wf (initialByte defaultParams) [(0x1000, 1#8)] = false ∧
      Memory.wf (initialByte defaultParams) [(0x300, 1#8), (0x301, 2#8)] = true := by decide

/-- Writing the reset value removes the cell. -/
theorem test_memory_write_back : ((State.reset.setByte 0x300 5#8).setByte 0x300 0#8).mem = [] := by decide

/-! ### Witnesses: a concrete state and operands for the hypotheses of each statement, clause by clause,
at boundary values -/

theorem test_witness_StepRuns_halted :
    haltedState.fault ≠ none := by decide

theorem test_witness_StepRuns_no_fetch :
    let s : State := { State.reset with pc := 0xFFF#16 }
    s.fault = none ∧ 0xFFE < s.pc.toNat := by decide

theorem test_witness_StepRuns_illegal :
    State.reset.fault = none ∧ State.reset.pc.toNat ≤ 0xFFE ∧
      0x0000#16 = State.reset.byteAt State.reset.pc.toNat ++ State.reset.byteAt (State.reset.pc.toNat + 1) ∧
      ∀ i, decode 0x0000#16 ≠ .ok i := 
  ⟨rfl, by decide, by decide, fun i h => by
    rw [show decode 0x0000#16 = .error (.illegal 0x0000#16) by decide] at h
    cases h⟩

theorem test_witness_StepRuns_legal :
    let s := State.withFetchWord { State.reset with pc := 0xFFE#16 } 16 0x1200
    s.fault = none ∧ s.pc.toNat ≤ 0xFFE ∧ 0x1200#16 = s.byteAt s.pc.toNat ++ s.byteAt (s.pc.toNat + 1) ∧
      decode 0x1200#16 = .ok (.jp 0x200#12) := by decide

theorem test_witness_PlacedWord :
    let s : State := { State.reset with pc := 0xFFE#16 }
    s.fault = none ∧ s.pc.toNat ≤ 0xFFE ∧ decodeTableWord 16 0x00E0 = some .cls := by decide

theorem test_witness_DecodeOfEncode :
    (Instr.drw 0xF#4 0x0#4 0xF#4).wellFormed = true := by decide

theorem test_witness_EncodeOfDecode :
    decode 0x8F1E#16 = .ok (.shl 0xF#4 0x1#4) := by decide

theorem test_witness_LegalWords :
    legalWord 0xFF65#16 = true ∧ legalWord 0xFF66#16 = false := by decide

theorem test_witness_AtMostOneRow :
    ∃ r ∈ rows, ∃ q ∈ rows, r.accepts 0x8F1E#16 = true ∧ q.accepts 0x8F1E#16 = true := by decide

/-- The words that `DecodesAs` speaks of: one for each row of the opcode map. -/
theorem test_witness_DecodesAs : ∀ r ∈ rows, ∃ op : Word, op &&& r.mask = r.bits :=
  fun r hr => ⟨r.bits, by revert r; decide⟩

theorem test_witness_Ret :
    (∃ a rest, ({ State.reset with stack := [0x206#16] } : State).stack = a :: rest) ∧ State.reset.stack = [] := 
  ⟨⟨_, _, rfl⟩, rfl⟩

theorem test_witness_Call_room :
    (bounded 2 { State.reset with stack := [0x202#16] }).params.stackDepth ≠ some 1 ∧
      State.reset.params.stackDepth ≠ some State.reset.stack.length := by decide

theorem test_witness_Call_full :
    (bounded 2 { State.reset with stack := [0x204#16, 0x202#16] }).params.stackDepth =
      some [0x204#16, 0x202#16].length := by decide

theorem test_witness_RetUndoesCall :
    State.reset.params.stackDepth ≠ some State.reset.stack.length ∧
      ∃ t, exec (.call 0x400#12) State.reset = .next t ∧ ({ State.reset with stack := t.stack } : State).stack = t.stack := 
  ⟨by decide, _, rfl, rfl⟩

/-- AddWithCarry, SubtractStrictFlag, ReverseSubtractStrictFlag, Shifts, ShiftsIgnoreY: with x or y = F. -/
theorem test_witness_alias_sequential :
    State.reset.params.aliasPolicy = .sequential := by decide

/-- The same: no operand is F, whatever the policy. -/
theorem test_witness_alias_other_registers :
    (refusing State.reset).params.aliasPolicy = .refuse ∧ (0x0#4 : Reg) ≠ VF ∧ (0xE#4 : Reg) ≠ VF := by decide

/-- The same: a listed form under `refuse`. -/
theorem test_witness_alias_refused :
    (refusing State.reset).params.aliasPolicy = .refuse ∧ (0xF#4 : Reg) = VF := by decide

theorem test_witness_Subtract_flag :
    (1#8 : Byte) = (if ((withRegs [(0x0#4, 6#8), (0x1#4, 5#8)]).reg 0x0#4).toNat > 5 then 1#8 else 0#8) ∧
      (0#8 : Byte) = (if ((withRegs [(0x0#4, 5#8)]).reg 0x0#4).toNat > 5 then 1#8 else 0#8) := by decide

theorem test_witness_FlagLaws :
    (0x0#4 : Reg) ≠ VF ∧ (0x1#4 : Reg) ≠ VF ∧ (∃ t, exec (.addReg 0x0#4 0x1#4) State.reset = .next t) ∧
      (∃ t, exec (.subReg 0x0#4 0x1#4) State.reset = .next t) ∧ (∃ t, exec (.subn 0x0#4 0x1#4) State.reset = .next t) ∧
      (∃ t, exec (.shr 0x0#4 0x1#4) State.reset = .next t) ∧ (∃ t, exec (.shl 0x0#4 0x1#4) State.reset = .next t) := 
  ⟨by decide, by decide, ⟨_, rfl⟩, ⟨_, rfl⟩, ⟨_, rfl⟩, ⟨_, rfl⟩, ⟨_, rfl⟩⟩

theorem test_witness_AliasTable :
    let s := withRegs [(0x1#4, 5#8), (VF, 2#8)]
    s.params.aliasPolicy = .sequential ∧ (0x1#4 : Reg) ≠ VF ∧ 5#8 = s.reg 0x1#4 ∧ 2#8 = s.reg VF := by decide

theorem test_witness_AliasRefused_listed :
    (refusing State.reset).fault = none ∧ (refusing State.reset).params.aliasPolicy = .refuse ∧
      aliasListed (.subReg 0x1#4 0xF#4) = true ∧ aliasListed (.addReg 0x1#4 0xF#4) = false := by decide

theorem test_witness_AliasRefused_other_fault :
    ∃ t record, exec .ret State.reset = .next t ∧ t.fault = some record := 
  ⟨_, _, rfl, rfl⟩

theorem test_witness_Draw_in_range :
    (0x0#4 : Rows) = 0#4 ∧ ({ State.reset with index := 0xFFE#16 } : State).index.toNat + (2#4 : Rows).toNat ≤ 0x1000 := by decide

theorem test_witness_Draw_out_of_range :
    (2#4 : Rows) ≠ 0#4 ∧ 0x1000 < ({ State.reset with index := 0xFFF#16 } : State).index.toNat + (2#4 : Rows).toNat := by decide

theorem test_witness_Draw_collision :
    let s : State := { State.reset with index := 0x050#16, disp := Grid.flip Grid.blank 3 0 }
    ∃ c r, covers s 0x0#4 0x1#4 5#4 c r ∧ Grid.pixel s.disp c r = true := 
  ⟨3, 0, ⟨by decide, by decide, 0, 3, by decide⟩, by decide⟩

theorem test_witness_Draw_no_collision :
    let s : State := { State.reset with index := 0x050#16 }
    ¬ ∃ c r, covers s 0x0#4 0x1#4 5#4 c r ∧ Grid.pixel s.disp c r = true := fun ⟨c, r, _, h⟩ => by
  rw [show ({ State.reset with index := 0x050#16 } : State).disp = Grid.blank from rfl, Grid.pixel_blank] at h
  cases h

theorem test_witness_DrawTwice :
    let s : State := { State.reset with index := 0x050#16 }
    ∃ t u, s.fault = none ∧ t.fault = none ∧ (0x0#4 : Reg) ≠ VF ∧ (0x1#4 : Reg) ≠ VF ∧
      exec (.drw 0x0#4 0x1#4 5#4) s = .next t ∧ exec (.drw 0x0#4 0x1#4 5#4) t = .next u ∧
      ∀ c r, Grid.pixel s.disp c r = false := 
  ⟨_, _, rfl, rfl, by decide, by decide, rfl, rfl, Grid.pixel_blank⟩

theorem test_witness_KeySkips :
    ((withRegs [(0x2#4, 15#8)]).reg 0x2#4).toNat < 16 ∧ 15 < ((withRegs [(0x2#4, 16#8)]).reg 0x2#4).toNat := by decide

theorem test_witness_AddToIndex :
    let s : State := { withRegs [(0x1#4, 1#8), (0x2#4, 2#8)] with index := 0xFFFE#16 }
    s.index.toNat + (s.reg 0x1#4).toNat ≤ 0xFFFF ∧ 0xFFFF < s.index.toNat + (s.reg 0x2#4).toNat := by decide

theorem test_witness_KeyWait_pressed :
    let s := hostSetKeys 0x8200#16 State.reset
    s.keys[9] = true ∧ ∀ j : Fin 16, j < 9 → s.keys[j.val]'j.isLt = false := by decide

theorem test_witness_KeyWait_none :
    ∀ k : Fin 16, State.reset.keys[k.val]'k.isLt = false := by decide

theorem test_witness_Decimal :
    ({ State.reset with index := 0xFFD#16 } : State).base + 2 ≤ 0xFFF ∧
      0xFFF < ({ State.reset with index := 0xFFE#16 } : State).base + 2 := by decide

theorem test_witness_Registers_block :
    ({ State.reset with index := 0xFF0#16 } : State).base + (0xF#4 : Reg).toNat ≤ 0xFFF ∧
      0xFFF < ({ State.reset with index := 0xFF1#16 } : State).base + (0xF#4 : Reg).toNat ∧
      (0xF#4 : Reg).toNat ≤ (0xF#4 : Reg).toNat := by decide

/-- P4, step 4. -/
theorem test_witness_StoredCode :
    let s : State := { withRegs [(0x0#4, 0x6A#8), (0x1#4, 0x42#8)] with pc := 0x206#16, index := 0x208#16 }
    ∃ t, exec (.storeRegs 0x1#4) s = .next t ∧ s.base + (0x1#4 : Reg).toNat ≤ 0xFFF ∧ 0 + 1 ≤ (0x1#4 : Reg).toNat ∧
      t.pc.toNat = s.base + 0 := 
  ⟨_, rfl, by decide, by decide, by decide⟩

theorem test_witness_MemoryPrimitives :
    0xFFF ≤ 0xFFF ∧ 0xFFF < 0x1000 := by decide

theorem test_witness_FaultsArePrecise :
    State.reset.fault = none ∧ ∃ t record, step State.reset = .next t ∧ t.fault = some record := 
  ⟨rfl, haltedState, _, rfl, rfl⟩

theorem test_witness_FaultsArePrecise_execute :
    let s := State.reset.withFetchWord 16 0x00EE
    s.fault = none ∧ ∃ t record, step s = .next t ∧ t.fault = some record := 
  ⟨by decide, after State.reset 0x00EE, _, rfl, rfl⟩

theorem test_witness_HaltedUntilReset :
    haltedState.fault ≠ none ∧ HostOp.reset ∉ [HostOp.step, .tick, .load [0x12#8], .setKeys 1#16] := by decide

theorem test_witness_StepKeeps :
    let s := (State.reset.withFetchWord 16 0x00E0).setByte 0x300 7#8
    (∃ t, step s = .next t) ∧ MemoryCanonical s ∧ PcInRange s := 
  ⟨⟨_, rfl⟩, by unfold MemoryCanonical; decide, by decide, fun a h => by cases h⟩

theorem test_witness_Inv :
    Inv (bounded 1 { State.reset with pc := 0x10FE#16, stack := [0x1000#16] }) := 
  ⟨rfl, ⟨by decide, fun a h => by rcases List.mem_singleton.1 h with rfl; decide⟩,
    fun depth h => (by cases h; decide), fun record h => by cases h⟩

theorem test_witness_Inv_halted :
    Inv haltedState := 
  ⟨rfl, ⟨by decide, fun a h => by cases h⟩, fun depth h => (by cases h), fun record h => by cases h; decide⟩

theorem test_witness_RegistersWritten :
    ∃ t, exec (.addReg 0x1#4 0x2#4) State.reset = .next t ∧ writesReg (.addReg 0x1#4 0x2#4) 0x2#4 = false := 
  ⟨_, rfl, rfl⟩

theorem test_witness_SpecialState_index :
    ∃ t, exec (.ldI 0x123#12) State.reset = .next t ∧ t.index ≠ State.reset.index := 
  ⟨_, rfl, by decide⟩

theorem test_witness_SpecialState_stack :
    ∃ t, exec (.call 0x123#12) State.reset = .next t ∧ t.stack ≠ State.reset.stack := 
  ⟨_, rfl, by decide⟩

theorem test_witness_SpecialState_display :
    ∃ t, exec (.drw 0x0#4 0x0#4 5#4) { State.reset with index := 0x050#16 } = .next t ∧
      t.disp ≠ State.reset.disp ∧ t.drawFlag ≠ State.reset.drawFlag := 
  ⟨_, rfl, by decide, by decide⟩

theorem test_witness_SpecialState_timers :
    (∃ t, exec (.setDT 0x1#4) (withRegs [(0x1#4, 3#8)]) = .next t ∧ t.dt ≠ 0#8) ∧
      ∃ t, exec (.setST 0x1#4) (withRegs [(0x1#4, 3#8)]) = .next t ∧ t.st ≠ 0#8 := 
  ⟨⟨_, rfl, by decide⟩, _, rfl, by decide⟩

theorem test_witness_SpecialState_memory :
    let s : State := { withRegs [(0x0#4, 3#8)] with index := 0x300#16 }
    ∃ t, exec (.storeRegs 0x0#4) s = .next t ∧ t.byteAt 0x300 ≠ s.byteAt 0x300 := 
  ⟨_, rfl, by decide⟩

theorem test_witness_PcAfter :
    ∃ t, exec (.jpV0 0xFFF#12) (withRegs [(0x0#4, 0xFF#8)]) = .next t ∧ State.reset.fault = none ∧ t.fault = none := 
  ⟨_, rfl, rfl, rfl⟩

theorem test_witness_Unlisted :
    ∃ t, readsReg (.shr 0x1#4 0x2#4) 0x2#4 = false ∧ exec (.shr 0x1#4 0x2#4) State.reset = .next t := 
  ⟨_, rfl, rfl⟩

theorem test_witness_SoundTimer :
    ∃ t, step (State.reset.withFetchWord 16 0x00E0) = .next t := 
  ⟨_, rfl⟩

/-- V30. -/
theorem test_witness_IdleEnd :
    IdleEnd (State.reset.withFetchWord 16 0x1200) := 
  ⟨by decide, by decide, by decide⟩

/-- V151. -/
theorem test_witness_WaitingForKey :
    WaitingForKey (State.reset.withFetchWord 16 0xF50A) ∧ (0x8000#16 : Word) ≠ 0#16 := 
  ⟨⟨by decide, by decide, by decide, by decide⟩, by decide⟩

theorem test_witness_ResetState_and_display :
    0xFFF < 0x1000 ∧ 74 < 75 ∧ 63 < 64 ∧ 31 < 32 := by decide

theorem test_witness_FaultsArePrecise_no_fault :
    let s := State.reset.withFetchWord 16 0x00E0
    s.fault = none ∧ ∃ t, step s = .next t ∧ t.fault = none := 
  ⟨by decide, _, rfl, by decide⟩

/-- V121, V5: the record that the table of R301 gives, with the lowest bad address, and a fetch beyond 0xFFF. -/
theorem test_due_fault :
    let s : State := State.withFetchWord { withRegs [(0x1#4, 0x1F#8)] with index := 0xFFF#16 } 16 0xD012
    dueFault s = some { cause := .dataOutOfRange, pc := 0x200#16, opcode := some 0xD012#16, info := some 0x1000 } ∧
      dueFault { State.reset with pc := 0x1000#16 } =
        some { cause := .fetchOutOfRange, pc := 0x1000#16, opcode := none, info := some 0x1000 } := by decide

theorem test_witness_StepRequest :
    haltedState.fault ≠ none ∧ State.reset.fault = none ∧ (∃ t record, step State.reset = .next t ∧ t.fault = some record) ∧
      ∃ t, step (State.reset.withFetchWord 16 0x00E0) = .next t ∧ t.fault = none := 
  ⟨by decide, rfl, ⟨haltedState, _, rfl, rfl⟩, _, rfl, by decide⟩

theorem test_witness_PcAfter_skip :
    ∃ t, exec (.skp 0x2#4) (hostSetKeys 0x8000#16 (withRegs [(0x2#4, 0xF#8)])) = .next t ∧ t.fault = none := 
  ⟨_, rfl, rfl⟩

theorem test_witness_Load :
    (List.replicate 3584 (1#8 : Byte)).length ≤ 3584 ∧ 3584 < (List.replicate 3585 (1#8 : Byte)).length := by
  rw [List.length_replicate, List.length_replicate]
  decide

end Sys2Proof.Tests
end

/-! SUPPORT. Family 0, clear screen and return (spec/40_family0_screen_return.md). -/

namespace Sys2Proof.Proofs

open Sys2Proof.Machine Sys2Proof.Safety

/-- Row 1 of R110. -/
theorem decodesAs_cls : DecodesAs 0xFFFF#16 0x00E0#16 (fun _ => .cls) := fun op h =>
  decode_of_row_at 0 (by decide) op h

/-- CLS raises no fault (R301), so it answers its result (R130). -/
theorem exec_cls (s : State) : exec .cls s = .next (resultOf .cls s) := exec_eq .cls s

theorem frame_cls (s : State) : Frame { disp := true, drawFlag := true } s (resultOf .cls s) where
  regs _ _ := rfl
  index _ := rfl
  stack _ := rfl
  disp h := by cases h
  drawFlag h := by cases h
  dt _ := rfl
  st _ := rfl
  draws _ := rfl
  bytes _ _ := rfl
  keys := rfl
  fault := rfl
  params := rfl

/-- Settles O8: the result of CLS is the advanced state with a blank display and `drawFlag` set. -/
theorem clsClearsDisplay : Obligations.ClsClearsDisplay :=
  ⟨decodesAs_cls, fun s => ⟨resultOf .cls s, exec_cls s, Grid.pixel_blank, rfl, rfl, frame_cls s⟩⟩

end Sys2Proof.Proofs

/-! SUPPORT. Families 1 to 5, the unconditional jump and the register skips
(spec/41_family1to5_jump_call_skip.md, and 9xy0 of spec/44_family9toC_skip_index_jump_random.md). -/

namespace Sys2Proof.Proofs

open Sys2Proof.Machine Sys2Proof.Safety

/-! ### JP -/

/-- Row 3 of R110. -/
theorem decodesAs_jp : DecodesAs 0xF000#16 0x1000#16 (fun op => .jp (fieldNNN op)) := fun op h =>
  decode_of_row_at 2 (by decide) op h

/-- Zero extension keeps the address (R102). -/
@[simp] theorem toNat_addressOf (nnn : Addr) : (addressOf nnn).toNat = nnn.toNat :=
  BitVec.toNat_setWidth_of_le (by decide)

/-- A jump changes nothing but `PC`. -/
theorem frame_jump (s : State) (a : Word) : Frame {} s (s.jump a) where
  regs := fun r _ => State.jump_reg s a r
  index _ := rfl
  stack _ := rfl
  disp _ := rfl
  drawFlag _ := rfl
  dt _ := rfl
  st _ := rfl
  draws _ := rfl
  bytes := fun k _ => State.jump_byteAt s a k
  keys := rfl
  fault := rfl
  params := rfl

/-- JP raises no fault (R301), so it answers the jump (R141). -/
theorem exec_jp (nnn : Addr) (s : State) : exec (.jp nnn) s = .next (s.jump (addressOf nnn)) :=
  exec_eq (.jp nnn) s

/-- Settles O10: the result of JP is the jump to its zero-extended address. -/
theorem jpSetsPc : Obligations.JpSetsPc :=
  ⟨decodesAs_jp, fun nnn s =>
    ⟨s.jump (addressOf nnn), exec_jp nnn s, toNat_addressOf nnn, frame_jump s (addressOf nnn)⟩⟩

/-! ### The skips on registers and immediates -/

/-- Row 5 of R110. -/
theorem decodesAs_seImm :
    DecodesAs 0xF000#16 0x3000#16 (fun op => .seImm (fieldX op) (fieldKK op)) := fun op h =>
  decode_of_row_at 4 (by decide) op h

/-- Row 6 of R110. -/
theorem decodesAs_sneImm :
    DecodesAs 0xF000#16 0x4000#16 (fun op => .sneImm (fieldX op) (fieldKK op)) := fun op h =>
  decode_of_row_at 5 (by decide) op h

/-- Row 7 of R110. -/
theorem decodesAs_seReg :
    DecodesAs 0xF00F#16 0x5000#16 (fun op => .seReg (fieldX op) (fieldY op)) := fun op h =>
  decode_of_row_at 6 (by decide) op h

/-- Row 19 of R110. -/
theorem decodesAs_sneReg :
    DecodesAs 0xF00F#16 0x9000#16 (fun op => .sneReg (fieldX op) (fieldY op)) := fun op h =>
  decode_of_row_at 18 (by decide) op h

/-- The skip mechanism (R140), for any instruction that answers a skip: `PC` goes where the condition says
and nothing else changes. -/
theorem completes_of_exec_skipIf {i : Instr} {s : State} {cond : Bool} {p : Prop} [Decidable p]
    (hexec : exec i s = .next (skipIf cond s.advance)) (hcond : cond = true ↔ p) :
    Completes i s fun t => t.pc = skipPc p s ∧ Frame {} s t :=
  ⟨skipIf cond s.advance, hexec, pc_skipIf s cond p hcond, frame_skipIf s cond⟩

/-- Settles O13: both instructions answer a skip (R143, R144), on the equality test or its negation. -/
theorem immediateSkips : Obligations.ImmediateSkips :=
  ⟨decodesAs_seImm, decodesAs_sneImm, fun x kk s =>
    ⟨completes_of_exec_skipIf (exec_eq (.seImm x kk) s) beq_iff_eq,
      completes_of_exec_skipIf (exec_eq (.sneImm x kk) s) bne_iff_ne⟩⟩

/-- Settles O14: both instructions answer a skip (R145, R200), on the equality test or its negation. -/
theorem registerSkips : Obligations.RegisterSkips :=
  ⟨decodesAs_seReg, decodesAs_sneReg, fun x y s =>
    ⟨completes_of_exec_skipIf (exec_eq (.seReg x y) s) beq_iff_eq,
      completes_of_exec_skipIf (exec_eq (.sneReg x y) s) bne_iff_ne⟩⟩

end Sys2Proof.Proofs

/-! SUPPORT. Families 6 and 7, register immediates (spec/42_family6to7_immediate.md). -/

namespace Sys2Proof.Proofs

open Sys2Proof.Machine Sys2Proof.Safety

/-- Row 8 of R110. -/
theorem decodesAs_ldImm :
    DecodesAs 0xF000#16 0x6000#16 (fun op => .ldImm (fieldX op) (fieldKK op)) := fun op h =>
  decode_of_row_at 7 (by decide) op h

/-- Row 9 of R110. -/
theorem decodesAs_addImm :
    DecodesAs 0xF000#16 0x7000#16 (fun op => .addImm (fieldX op) (fieldKK op)) := fun op h =>
  decode_of_row_at 8 (by decide) op h

/-- The 8-bit sum wraps (R161, R178). -/
@[simp] theorem toNat_addResult (a b : Byte) : (addResult a b).toNat = (a.toNat + b.toNat) % 256 :=
  BitVec.toNat_ofNat (addSum a b) 8

/-- The register write, for any instruction that answers the advanced state with one register written:
VF is changed only if it is the destination. -/
theorem completes_of_exec_setReg {i : Instr} {s : State} {x : Reg} {b : Byte}
    (hexec : exec i s = .next (s.advance.setReg x b)) :
    Completes i s fun t => t.reg x = b ∧ t.pc = nextPc s ∧ Frame { regs := [x] } s t :=
  ⟨s.advance.setReg x b, hexec, State.reg_setReg_same s.advance x b, rfl, frame_setReg s x b⟩

/-- ADD Vx, kk writes the wrapped sum and no flag (R161). -/
theorem completes_addImm (x : Reg) (kk : Byte) (s : State) :
    Completes (.addImm x kk) s fun t =>
      (t.reg x).toNat = ((s.reg x).toNat + kk.toNat) % 256 ∧ t.pc = nextPc s ∧ Frame { regs := [x] } s t := by
  obtain ⟨t, hexec, hreg, hpc, hframe⟩ := completes_of_exec_setReg (exec_eq (.addImm x kk) s)
  exact ⟨t, hexec, by rw [hreg, toNat_addResult], hpc, hframe⟩

/-- Settles O15: both instructions write only the destination, `kk` (R160) or the wrapped sum (R161). -/
theorem immediateLoadAndAdd : Obligations.ImmediateLoadAndAdd :=
  ⟨decodesAs_ldImm, decodesAs_addImm, fun x kk s =>
    ⟨completes_of_exec_setReg (exec_eq (.ldImm x kk) s), completes_addImm x kk s⟩⟩

end Sys2Proof.Proofs

/-! SUPPORT. Family 8, the copy and the bitwise operations (spec/43_family8_alu.md). -/

namespace Sys2Proof.Proofs

open Sys2Proof.Machine Sys2Proof.Safety

/-- Row 10 of R110. -/
theorem decodesAs_ldReg :
    DecodesAs 0xF00F#16 0x8000#16 (fun op => .ldReg (fieldX op) (fieldY op)) := fun op h =>
  decode_of_row_at 9 (by decide) op h

/-- Row 11 of R110. -/
theorem decodesAs_orReg :
    DecodesAs 0xF00F#16 0x8001#16 (fun op => .orReg (fieldX op) (fieldY op)) := fun op h =>
  decode_of_row_at 10 (by decide) op h

/-- Row 12 of R110. -/
theorem decodesAs_andReg :
    DecodesAs 0xF00F#16 0x8002#16 (fun op => .andReg (fieldX op) (fieldY op)) := fun op h =>
  decode_of_row_at 11 (by decide) op h

/-- Row 13 of R110. -/
theorem decodesAs_xorReg :
    DecodesAs 0xF00F#16 0x8003#16 (fun op => .xorReg (fieldX op) (fieldY op)) := fun op h =>
  decode_of_row_at 12 (by decide) op h

/-- Settles O16: the four instructions raise no fault and write only the destination, with the source (R174)
or the bitwise OR, AND or XOR of the two registers (R175 to R177). -/
theorem copyAndLogic : Obligations.CopyAndLogic :=
  ⟨decodesAs_ldReg, decodesAs_orReg, decodesAs_andReg, decodesAs_xorReg, fun x y s =>
    ⟨completes_of_exec_setReg (exec_eq (.ldReg x y) s),
      completes_of_exec_setReg (exec_eq (.orReg x y) s),
      completes_of_exec_setReg (exec_eq (.andReg x y) s),
      completes_of_exec_setReg (exec_eq (.xorReg x y) s)⟩⟩

end Sys2Proof.Proofs

/-! SUPPORT. Family F, the timer transfers, the key wait and the font address (spec/47_familyF_misc.md). -/

namespace Sys2Proof.Proofs

open Sys2Proof.Machine Sys2Proof.Safety

/-! ### The key wait -/

/-- Row 30 of R110. -/
theorem decodesAs_waitKey : DecodesAs 0xF0FF#16 0xF00A#16 (fun op => .waitKey (fieldX op)) := fun op h =>
  decode_of_row_at 29 (by decide) op h

/-- There is at most one lowest pressed key (R256): each of two would be released below the other. -/
theorem lowest_pressed_unique {keys : Vector Bool 16} {j k : Fin 16}
    (hj : keys[j.val]'j.isLt = true) (hjlow : ∀ i : Fin 16, i < j → keys[i.val]'i.isLt = false)
    (hk : keys[k.val]'k.isLt = true) (hklow : ∀ i : Fin 16, i < k → keys[i.val]'i.isLt = false) : j = k :=
  le_antisymm
    (le_of_not_gt fun hlt => Bool.false_ne_true ((hjlow k hlt).symm.trans hk))
    (le_of_not_gt fun hlt => Bool.false_ne_true ((hklow j hlt).symm.trans hj))

/-- With a key pressed, Fx0A writes the lowest one and proceeds (R256). -/
theorem exec_waitKey_of_lowest {x : Reg} {s : State} {k : Fin 16} (hk : s.keys[k.val]'k.isLt = true)
    (hlow : ∀ j : Fin 16, j < k → s.keys[j.val]'j.isLt = false) :
    exec (.waitKey x) s = .next (s.advance.setReg x (BitVec.ofNat 8 k.val)) := by
  rcases execWaitKey_cases x s with ⟨j, hexec, hj, hjlow⟩ | ⟨_, hnone⟩
  · rw [hexec, lowest_pressed_unique hj hjlow hk hlow]
  · exact absurd ((hnone k).symm.trans hk) Bool.false_ne_true

/-- With no key pressed, Fx0A rewinds `PC` onto itself and changes nothing (R256). -/
theorem exec_waitKey_of_none {x : Reg} {s : State} (hnone : ∀ k : Fin 16, s.keys[k.val]'k.isLt = false) :
    exec (.waitKey x) s = .next s := by
  rcases execWaitKey_cases x s with ⟨k, _, hk, _⟩ | ⟨hexec, _⟩
  · exact absurd ((hnone k).symm.trans hk) Bool.false_ne_true
  · exact hexec

/-- A key's number fits a register. -/
theorem toNat_ofNat_key (k : Fin 16) : (BitVec.ofNat 8 k.val).toNat = k.val :=
  (BitVec.toNat_ofNat k.val 8).trans (Nat.mod_eq_of_lt (k.isLt.trans (by decide)))

/-- Settles O32: with a key pressed Fx0A is a register write of the one lowest key; with none it answers the
state it started from. -/
theorem keyWaitTakesLowestKey : Obligations.KeyWaitTakesLowestKey := by
  refine ⟨decodesAs_waitKey, fun x s => ⟨fun k hk hlow => ?_, exec_waitKey_of_none⟩⟩
  obtain ⟨t, hexec, hreg, hpc, hframe⟩ := completes_of_exec_setReg (exec_waitKey_of_lowest (x := x) hk hlow)
  exact ⟨t, hexec, by rw [hreg, toNat_ofNat_key], hpc, hframe⟩

/-! ### The timer transfers -/

/-- Row 26 of R110. -/
theorem decodesAs_readDT : DecodesAs 0xF0FF#16 0xF007#16 (fun op => .readDT (fieldX op)) := fun op h =>
  decode_of_row_at 25 (by decide) op h

/-- Row 27 of R110. -/
theorem decodesAs_setDT : DecodesAs 0xF0FF#16 0xF015#16 (fun op => .setDT (fieldX op)) := fun op h =>
  decode_of_row_at 26 (by decide) op h

/-- Row 28 of R110. -/
theorem decodesAs_setST : DecodesAs 0xF0FF#16 0xF018#16 (fun op => .setST (fieldX op)) := fun op h =>
  decode_of_row_at 27 (by decide) op h

/-- `I`, `DT` and `ST` written, each only where the frame lists it. -/
theorem frame_index_dt_st {k : Touch} {s : State} {i : Word} {d t : Byte}
    (hi : k.index = false → i = s.index) (hd : k.dt = false → d = s.dt) (ht : k.st = false → t = s.st) :
    Frame k s { s.advance with index := i, dt := d, st := t } where
  regs _ _ := rfl
  index := hi
  stack _ := rfl
  disp _ := rfl
  drawFlag _ := rfl
  dt := hd
  st := ht
  draws _ := rfl
  bytes _ _ := rfl
  keys := rfl
  fault := rfl
  params := rfl

/-- LD DT, Vx raises no fault (R301) and writes only `DT` (R251). -/
theorem completes_setDT (x : Reg) (s : State) :
    Completes (.setDT x) s fun t => t.dt = s.reg x ∧ t.pc = nextPc s ∧ Frame { dt := true } s t :=
  ⟨resultOf (.setDT x) s, exec_eq (.setDT x) s, rfl, rfl,
    frame_index_dt_st (fun _ => rfl) (fun h => nomatch h) (fun _ => rfl)⟩

/-- LD ST, Vx raises no fault (R301) and writes only `ST` (R252). -/
theorem completes_setST (x : Reg) (s : State) :
    Completes (.setST x) s fun t => t.st = s.reg x ∧ t.pc = nextPc s ∧ Frame { st := true } s t :=
  ⟨resultOf (.setST x) s, exec_eq (.setST x) s, rfl, rfl,
    frame_index_dt_st (fun _ => rfl) (fun _ => rfl) (fun h => nomatch h)⟩

/-- Settles O30: Fx07 is a register write of `DT` (R250); Fx15 and Fx18 write their one timer. -/
theorem timerTransfers : Obligations.TimerTransfers :=
  ⟨decodesAs_readDT, decodesAs_setDT, decodesAs_setST, fun x s =>
    ⟨completes_of_exec_setReg (exec_eq (.readDT x) s), completes_setDT x s, completes_setST x s⟩⟩

/-! ### The font address -/

/-- Row 31 of R110. -/
theorem decodesAs_ldFont : DecodesAs 0xF0FF#16 0xF029#16 (fun op => .ldFont (fieldX op)) := fun op h =>
  decode_of_row_at 30 (by decide) op h

/-- The glyph's address does not wrap: the last glyph is at 0x09B (R258). -/
theorem toNat_glyphAddress (b : Byte) : (glyphAddress b).toNat = b.toNat % 16 * 5 + 0x050 := by
  have hlow : b.toNat % 16 < 16 := Nat.mod_lt _ (by decide)
  exact (BitVec.toNat_ofNat _ 16).trans (Nat.mod_eq_of_lt (by simp only [fontBase]; omega))

/-- Settles O33: Fx29 raises no fault (R301) and writes only `I`, with the glyph's address. -/
theorem fontGlyphAddress : Obligations.FontGlyphAddress :=
  ⟨decodesAs_ldFont, fun x s =>
    ⟨resultOf (.ldFont x) s, exec_eq (.ldFont x) s, toNat_glyphAddress (s.reg x), rfl,
      frame_index_dt_st (fun h => nomatch h) (fun _ => rfl) (fun _ => rfl)⟩⟩

end Sys2Proof.Proofs

/-! SUPPORT. The host's LOAD (spec/70_reset_and_hazards.md). -/

namespace Sys2Proof.Proofs

open Sys2Proof.Machine

/-- A program that fits is written to memory from 0x200 on (R352). -/
theorem hostOp_load_of_le {bytes : List Byte} {s : State} (h : bytes.length ≤ programMax) :
    hostOp (.load bytes) s = (s.setBytes programBase bytes, .ok) := by
  simp only [hostOp, hostLoad, if_neg (Nat.not_lt.mpr h)]

/-- A program that does not fit is refused and the state stays (R352). -/
theorem hostOp_load_of_gt {bytes : List Byte} {s : State} (h : programMax < bytes.length) :
    hostOp (.load bytes) s = (s, .loadError) := by
  simp only [hostOp, hostLoad, if_pos h]

/-- The ceiling of LOAD is what lies between 0x200 and the end of memory (R352: 4096 - 512). -/
theorem programBase_add_programMax : programBase + programMax = memSize := rfl

/-- Settles O55: a program that fits is one block write inside the address space, which changes its own bytes
and nothing else; a longer one is refused. -/
theorem loadCopiesProgramOrFails : Obligations.LoadCopiesProgramOrFails := by
  refine fun bytes s => ⟨fun hfits => ?_, hostOp_load_of_gt⟩
  have hend : programBase + bytes.length ≤ memSize :=
    (Nat.add_le_add_left hfits programBase).trans_eq programBase_add_programMax
  exact ⟨s.setBytes programBase bytes, hostOp_load_of_le hfits,
    fun a => State.byteAt_setBytes s programBase a bytes hend, State.rest_setBytes s programBase bytes⟩

end Sys2Proof.Proofs

/-! SUPPORT. The opcode map of spec/30_encoding.md R110, row by row: the rows no family above has said. -/

namespace Sys2Proof.Proofs

open Sys2Proof.Machine Sys2Proof.Safety

/-- Row 2 of R110. -/
theorem decodesAs_ret : DecodesAs 0xFFFF#16 0x00EE#16 (fun _ => .ret) := fun op h =>
  decode_of_row_at 1 (by decide) op h

/-- Row 4 of R110. -/
theorem decodesAs_call : DecodesAs 0xF000#16 0x2000#16 (fun op => .call (fieldNNN op)) := fun op h =>
  decode_of_row_at 3 (by decide) op h

/-- Row 14 of R110. -/
theorem decodesAs_addReg :
    DecodesAs 0xF00F#16 0x8004#16 (fun op => .addReg (fieldX op) (fieldY op)) := fun op h =>
  decode_of_row_at 13 (by decide) op h

/-- Row 15 of R110. -/
theorem decodesAs_subReg :
    DecodesAs 0xF00F#16 0x8005#16 (fun op => .subReg (fieldX op) (fieldY op)) := fun op h =>
  decode_of_row_at 14 (by decide) op h

/-- Row 16 of R110. -/
theorem decodesAs_shr :
    DecodesAs 0xF00F#16 0x8006#16 (fun op => .shr (fieldX op) (fieldY op)) := fun op h =>
  decode_of_row_at 15 (by decide) op h

/-- Row 17 of R110. -/
theorem decodesAs_subn :
    DecodesAs 0xF00F#16 0x8007#16 (fun op => .subn (fieldX op) (fieldY op)) := fun op h =>
  decode_of_row_at 16 (by decide) op h

/-- Row 18 of R110. -/
theorem decodesAs_shl :
    DecodesAs 0xF00F#16 0x800E#16 (fun op => .shl (fieldX op) (fieldY op)) := fun op h =>
  decode_of_row_at 17 (by decide) op h

/-- Row 20 of R110. -/
theorem decodesAs_ldI : DecodesAs 0xF000#16 0xA000#16 (fun op => .ldI (fieldNNN op)) := fun op h =>
  decode_of_row_at 19 (by decide) op h

/-- Row 21 of R110. -/
theorem decodesAs_jpV0 : DecodesAs 0xF000#16 0xB000#16 (fun op => .jpV0 (fieldNNN op)) := fun op h =>
  decode_of_row_at 20 (by decide) op h

/-- Row 22 of R110. -/
theorem decodesAs_rnd :
    DecodesAs 0xF000#16 0xC000#16 (fun op => .rnd (fieldX op) (fieldKK op)) := fun op h =>
  decode_of_row_at 21 (by decide) op h

/-- Row 23 of R110. -/
theorem decodesAs_drw :
    DecodesAs 0xF000#16 0xD000#16 (fun op => .drw (fieldX op) (fieldY op) (fieldN op)) := fun op h =>
  decode_of_row_at 22 (by decide) op h

/-- Row 24 of R110. -/
theorem decodesAs_skp : DecodesAs 0xF0FF#16 0xE09E#16 (fun op => .skp (fieldX op)) := fun op h =>
  decode_of_row_at 23 (by decide) op h

/-- Row 25 of R110. -/
theorem decodesAs_sknp : DecodesAs 0xF0FF#16 0xE0A1#16 (fun op => .sknp (fieldX op)) := fun op h =>
  decode_of_row_at 24 (by decide) op h

/-- Row 29 of R110. -/
theorem decodesAs_addI : DecodesAs 0xF0FF#16 0xF01E#16 (fun op => .addI (fieldX op)) := fun op h =>
  decode_of_row_at 28 (by decide) op h

/-- Row 32 of R110. -/
theorem decodesAs_storeBcd : DecodesAs 0xF0FF#16 0xF033#16 (fun op => .storeBcd (fieldX op)) := fun op h =>
  decode_of_row_at 31 (by decide) op h

/-- Row 33 of R110. -/
theorem decodesAs_storeRegs : DecodesAs 0xF0FF#16 0xF055#16 (fun op => .storeRegs (fieldX op)) := fun op h =>
  decode_of_row_at 32 (by decide) op h

/-- Row 34 of R110. -/
theorem decodesAs_loadRegs : DecodesAs 0xF0FF#16 0xF065#16 (fun op => .loadRegs (fieldX op)) := fun op h =>
  decode_of_row_at 33 (by decide) op h

end Sys2Proof.Proofs

/-! SUPPORT. The decoder and the encoder as a whole (spec/30_encoding.md): the round trips, the legal words. -/

namespace Sys2Proof.Proofs

open Sys2Proof.Machine Sys2Proof.Safety Sys2Proof.Laws

/-! ### From an instruction to its word and back: one lemma for each shape of word (R100) -/

theorem decode_packNNN {f : BitVec 4} {nnn : Addr} {build : Addr → Instr}
    (h : DecodesAs 0xF000#16 (packNNN f 0#12) fun op => build (fieldNNN op)) :
    decode (packNNN f nnn) = .ok (build nnn) := by
  simp only [h _ (packNNN_and_F000 f nnn), fieldNNN_packNNN]

theorem decode_packXKK {f : BitVec 4} {x : Reg} {kk : Byte} {build : Reg → Byte → Instr}
    (h : DecodesAs 0xF000#16 (packXKK f 0#4 0#8) fun op => build (fieldX op) (fieldKK op)) :
    decode (packXKK f x kk) = .ok (build x kk) := by
  simp only [h _ (packXKK_and_F000 f x kk), fieldX_packXKK, fieldKK_packXKK]

/-- The low byte is part of the opcode. -/
theorem decode_packXKK_low {f : BitVec 4} {x : Reg} {kk : Byte} {build : Reg → Instr}
    (h : DecodesAs 0xF0FF#16 (packXKK f 0#4 kk) fun op => build (fieldX op)) :
    decode (packXKK f x kk) = .ok (build x) := by
  simp only [h _ (packXKK_and_F0FF f x kk), fieldX_packXKK]

theorem decode_packXYN {f : BitVec 4} {x y : Reg} {n : Rows} {build : Reg → Reg → Rows → Instr}
    (h : DecodesAs 0xF000#16 (packXYN f 0#4 0#4 0#4) fun op => build (fieldX op) (fieldY op) (fieldN op)) :
    decode (packXYN f x y n) = .ok (build x y n) := by
  simp only [h _ (packXYN_and_F000 f x y n), fieldX_packXYN, fieldY_packXYN, fieldN_packXYN]

/-- The low nibble is part of the opcode. -/
theorem decode_packXYN_low {f n : BitVec 4} {x y : Reg} {build : Reg → Reg → Instr}
    (h : DecodesAs 0xF00F#16 (packXYN f 0#4 0#4 n) fun op => build (fieldX op) (fieldY op)) :
    decode (packXYN f x y n) = .ok (build x y) := by
  simp only [h _ (packXYN_and_F00F f x y n), fieldX_packXYN, fieldY_packXYN]

/-- The word of an instruction decodes to it: each by its row and the shape of its word. -/
theorem decode_encode (i : Instr) : decode (encode i) = .ok i := by
  cases i with
  | cls => exact decodesAs_cls _ rfl
  | ret => exact decodesAs_ret _ rfl
  | jp nnn => exact decode_packNNN decodesAs_jp
  | call nnn => exact decode_packNNN decodesAs_call
  | seImm x kk => exact decode_packXKK decodesAs_seImm
  | sneImm x kk => exact decode_packXKK decodesAs_sneImm
  | seReg x y => exact decode_packXYN_low decodesAs_seReg
  | ldImm x kk => exact decode_packXKK decodesAs_ldImm
  | addImm x kk => exact decode_packXKK decodesAs_addImm
  | ldReg x y => exact decode_packXYN_low decodesAs_ldReg
  | orReg x y => exact decode_packXYN_low decodesAs_orReg
  | andReg x y => exact decode_packXYN_low decodesAs_andReg
  | xorReg x y => exact decode_packXYN_low decodesAs_xorReg
  | addReg x y => exact decode_packXYN_low decodesAs_addReg
  | subReg x y => exact decode_packXYN_low decodesAs_subReg
  | shr x y => exact decode_packXYN_low decodesAs_shr
  | subn x y => exact decode_packXYN_low decodesAs_subn
  | shl x y => exact decode_packXYN_low decodesAs_shl
  | sneReg x y => exact decode_packXYN_low decodesAs_sneReg
  | ldI nnn => exact decode_packNNN decodesAs_ldI
  | jpV0 nnn => exact decode_packNNN decodesAs_jpV0
  | rnd x kk => exact decode_packXKK decodesAs_rnd
  | drw x y n => exact decode_packXYN decodesAs_drw
  | skp x => exact decode_packXKK_low decodesAs_skp
  | sknp x => exact decode_packXKK_low decodesAs_sknp
  | readDT x => exact decode_packXKK_low decodesAs_readDT
  | setDT x => exact decode_packXKK_low decodesAs_setDT
  | setST x => exact decode_packXKK_low decodesAs_setST
  | addI x => exact decode_packXKK_low decodesAs_addI
  | waitKey x => exact decode_packXKK_low decodesAs_waitKey
  | ldFont x => exact decode_packXKK_low decodesAs_ldFont
  | storeBcd x => exact decode_packXKK_low decodesAs_storeBcd
  | storeRegs x => exact decode_packXKK_low decodesAs_storeRegs
  | loadRegs x => exact decode_packXKK_low decodesAs_loadRegs

/-- Settles O3: every instruction is well-formed, and its word decodes to it. -/
theorem decodeOfEncode : Obligations.DecodeOfEncode := fun i _ => decode_encode i

/-! ### From a word to its instruction and back -/

/-- What a row builds from a word it accepts has that word: the fields and the row's fixed bits are the whole
of it. -/
def ExactRow (r : Row) : Prop := ∀ op : Word, op &&& r.mask = r.bits → encode (r.build op) = op

theorem eq_of_and_FFFF {op bits : Word} (h : op &&& 0xFFFF#16 = bits) : bits = op :=
  h.symm.trans BitVec.and_allOnes

theorem exact_of_mem_rowsFamily0to7 : ∀ r ∈ rowsFamily0to7, ExactRow r := by
  simp only [rowsFamily0to7, List.forall_mem_cons, List.not_mem_nil, IsEmpty.forall_iff, implies_true, and_true]
  exact ⟨fun _ h => eq_of_and_FFFF h, fun _ h => eq_of_and_FFFF h,
    fun _ h => packNNN_of_mask h, fun _ h => packNNN_of_mask h,
    fun _ h => packXKK_of_mask h, fun _ h => packXKK_of_mask h,
    fun _ h => packXYN_of_mask_low h, fun _ h => packXKK_of_mask h, fun _ h => packXKK_of_mask h⟩

theorem exact_of_mem_rowsFamily8 : ∀ r ∈ rowsFamily8, ExactRow r := by
  simp only [rowsFamily8, List.forall_mem_cons, List.not_mem_nil, IsEmpty.forall_iff, implies_true, and_true]
  exact ⟨fun _ h => packXYN_of_mask_low h, fun _ h => packXYN_of_mask_low h, fun _ h => packXYN_of_mask_low h,
    fun _ h => packXYN_of_mask_low h, fun _ h => packXYN_of_mask_low h, fun _ h => packXYN_of_mask_low h,
    fun _ h => packXYN_of_mask_low h, fun _ h => packXYN_of_mask_low h, fun _ h => packXYN_of_mask_low h⟩

theorem exact_of_mem_rowsFamily9toE : ∀ r ∈ rowsFamily9toE, ExactRow r := by
  simp only [rowsFamily9toE, List.forall_mem_cons, List.not_mem_nil, IsEmpty.forall_iff, implies_true, and_true]
  exact ⟨fun _ h => packXYN_of_mask_low h, fun _ h => packNNN_of_mask h, fun _ h => packNNN_of_mask h,
    fun _ h => packXKK_of_mask h, fun _ h => packXYN_of_mask h, fun _ h => packXKK_of_mask_low h,
    fun _ h => packXKK_of_mask_low h⟩

theorem exact_of_mem_rowsFamilyF : ∀ r ∈ rowsFamilyF, ExactRow r := by
  simp only [rowsFamilyF, List.forall_mem_cons, List.not_mem_nil, IsEmpty.forall_iff, implies_true, and_true]
  exact ⟨fun _ h => packXKK_of_mask_low h, fun _ h => packXKK_of_mask_low h, fun _ h => packXKK_of_mask_low h,
    fun _ h => packXKK_of_mask_low h, fun _ h => packXKK_of_mask_low h, fun _ h => packXKK_of_mask_low h,
    fun _ h => packXKK_of_mask_low h, fun _ h => packXKK_of_mask_low h, fun _ h => packXKK_of_mask_low h⟩

theorem exact_of_mem_rows {r : Row} (hr : r ∈ rows) : ExactRow r := by
  simp only [rows, List.mem_append] at hr
  rcases hr with hr | hr | hr | hr
  · exact exact_of_mem_rowsFamily0to7 r hr
  · exact exact_of_mem_rowsFamily8 r hr
  · exact exact_of_mem_rowsFamily9toE r hr
  · exact exact_of_mem_rowsFamilyF r hr

/-- Settles O4: the accepting row built the instruction, and no row ignores a bit. -/
theorem encodeOfDecode : Obligations.EncodeOfDecode := by
  intro op i hi
  rcases decode_cases op with ⟨r, hr, haccepts, hdecode⟩ | ⟨_, hdecode⟩ <;>
    rw [hi] at hdecode <;> cases hdecode
  exact exact_of_mem_rows hr op haccepts

/-! ### The legal words (R111) -/

/-- No instruction's word is listed as illegal. -/
theorem legal_encode (i : Instr) : legalWord (encode i) = true := by
  cases i with
  | cls => exact (LegalEncoding.cls).2
  | ret => exact (LegalEncoding.ret).2
  | jp nnn => exact (LegalEncoding.jp nnn).2
  | call nnn => exact (LegalEncoding.call nnn).2
  | seImm x kk => exact (LegalEncoding.seImm x kk).2
  | sneImm x kk => exact (LegalEncoding.sneImm x kk).2
  | seReg x y => exact (LegalEncoding.seReg x y).2
  | ldImm x kk => exact (LegalEncoding.ldImm x kk).2
  | addImm x kk => exact (LegalEncoding.addImm x kk).2
  | ldReg x y => exact (LegalEncoding.ldReg x y).2
  | orReg x y => exact (LegalEncoding.orReg x y).2
  | andReg x y => exact (LegalEncoding.andReg x y).2
  | xorReg x y => exact (LegalEncoding.xorReg x y).2
  | addReg x y => exact (LegalEncoding.addReg x y).2
  | subReg x y => exact (LegalEncoding.subReg x y).2
  | shr x y => exact (LegalEncoding.shr x y).2
  | subn x y => exact (LegalEncoding.subn x y).2
  | shl x y => exact (LegalEncoding.shl x y).2
  | sneReg x y => exact (LegalEncoding.sneReg x y).2
  | ldI nnn => exact (LegalEncoding.ldI nnn).2
  | jpV0 nnn => exact (LegalEncoding.jpV0 nnn).2
  | rnd x kk => exact (LegalEncoding.rnd x kk).2
  | drw x y n => exact (LegalEncoding.drw x y n).2
  | skp x => exact (LegalEncoding.skp x).2
  | sknp x => exact (LegalEncoding.sknp x).2
  | readDT x => exact (LegalEncoding.readDT x).2
  | setDT x => exact (LegalEncoding.setDT x).2
  | setST x => exact (LegalEncoding.setST x).2
  | addI x => exact (LegalEncoding.addI x).2
  | waitKey x => exact (LegalEncoding.waitKey x).2
  | ldFont x => exact (LegalEncoding.ldFont x).2
  | storeBcd x => exact (LegalEncoding.storeBcd x).2
  | storeRegs x => exact (LegalEncoding.storeRegs x).2
  | loadRegs x => exact (LegalEncoding.loadRegs x).2

/-! What the masks of R110 leave of a word, in terms of its fields. -/

theorem and_F000 (op : Word) : op &&& 0xF000#16 = packXKK (fieldFamily op) 0#4 0#8 := by
  conv_lhs => rw [← packXKK_fields op, packXKK_and_F000]

theorem and_F0FF (op : Word) : op &&& 0xF0FF#16 = packXKK (fieldFamily op) 0#4 (fieldKK op) := by
  conv_lhs => rw [← packXKK_fields op, packXKK_and_F0FF]

theorem and_F00F (op : Word) : op &&& 0xF00F#16 = packXYN (fieldFamily op) 0#4 0#4 (fieldN op) := by
  conv_lhs => rw [← packXYN_fields op, packXYN_and_F00F]

/-- A word decodes to some instruction. -/
def Decodes (op : Word) : Prop := ∃ i, decode op = .ok i

/-- The family decides. -/
theorem decodes_of_family {op : Word} {f : BitVec 4} {build : Word → Instr} (hf : fieldFamily op = f)
    (h : DecodesAs 0xF000#16 (packXKK f 0#4 0#8) build) : Decodes op :=
  ⟨build op, h op (by rw [and_F000, hf])⟩

/-- The family and the low byte decide. -/
theorem decodes_of_family_low {op : Word} {f : BitVec 4} {kk : Byte} {build : Word → Instr}
    (hf : fieldFamily op = f) (hkk : fieldKK op = kk)
    (h : DecodesAs 0xF0FF#16 (packXKK f 0#4 kk) build) : Decodes op :=
  ⟨build op, h op (by rw [and_F0FF, hf, hkk])⟩

/-- The family and the low nibble decide. -/
theorem decodes_of_family_nibble {op : Word} {f n : BitVec 4} {build : Word → Instr}
    (hf : fieldFamily op = f) (hn : fieldN op = n)
    (h : DecodesAs 0xF00F#16 (packXYN f 0#4 0#4 n) build) : Decodes op :=
  ⟨build op, h op (by rw [and_F00F, hf, hn])⟩

/-! `legalWord` looks at three fields of a word. -/

theorem toNat_fieldFamily (op : Word) : (fieldFamily op).toNat = op.toNat / 0x1000 := by
  conv_rhs => rw [← packXKK_fields op, Laws.packXKK_family]

theorem toNat_fieldKK (op : Word) : (fieldKK op).toNat = op.toNat % 0x100 := by
  conv_rhs => rw [← packXKK_fields op, Laws.packXKK_low]

theorem toNat_fieldN (op : Word) : (fieldN op).toNat = op.toNat % 0x10 := by
  conv_rhs => rw [← packXYN_fields op, Laws.packXYN_low]

theorem decodes_family0 {op : Word} (h : (op.toNat == 0x00E0 || op.toNat == 0x00EE) = true) : Decodes op := by
  simp only [Bool.or_eq_true, beq_iff_eq] at h
  rcases h with h | h
  · rw [BitVec.eq_of_toNat_eq (x := op) (y := 0x00E0#16) h]
    exact ⟨.cls, decode_encode .cls⟩
  · rw [BitVec.eq_of_toNat_eq (x := op) (y := 0x00EE#16) h]
    exact ⟨.ret, decode_encode .ret⟩

theorem decodes_family8 {op : Word} (hf : fieldFamily op = 0x8#4)
    (h : ¬ [0x8, 0x9, 0xA, 0xB, 0xC, 0xD, 0xF].contains (fieldN op).toNat) : Decodes op := by
  have hn : fieldN op ∈ [0x0#4, 0x1#4, 0x2#4, 0x3#4, 0x4#4, 0x5#4, 0x6#4, 0x7#4, 0xE#4] := by
    revert h
    generalize fieldN op = n
    revert n
    decide
  simp only [List.mem_cons, List.not_mem_nil, or_false] at hn
  rcases hn with hn | hn | hn | hn | hn | hn | hn | hn | hn
  · exact decodes_of_family_nibble hf hn decodesAs_ldReg
  · exact decodes_of_family_nibble hf hn decodesAs_orReg
  · exact decodes_of_family_nibble hf hn decodesAs_andReg
  · exact decodes_of_family_nibble hf hn decodesAs_xorReg
  · exact decodes_of_family_nibble hf hn decodesAs_addReg
  · exact decodes_of_family_nibble hf hn decodesAs_subReg
  · exact decodes_of_family_nibble hf hn decodesAs_shr
  · exact decodes_of_family_nibble hf hn decodesAs_subn
  · exact decodes_of_family_nibble hf hn decodesAs_shl

theorem decodes_familyE {op : Word} (hf : fieldFamily op = 0xE#4)
    (h : [0x9E, 0xA1].contains (fieldKK op).toNat) : Decodes op := by
  have hkk : fieldKK op ∈ [0x9E#8, 0xA1#8] := by
    simpa [BitVec.toNat_eq] using h
  simp only [List.mem_cons, List.not_mem_nil, or_false] at hkk
  rcases hkk with hkk | hkk
  · exact decodes_of_family_low hf hkk decodesAs_skp
  · exact decodes_of_family_low hf hkk decodesAs_sknp

theorem decodes_familyF {op : Word} (hf : fieldFamily op = 0xF#4)
    (h : [0x07, 0x0A, 0x15, 0x18, 0x1E, 0x29, 0x33, 0x55, 0x65].contains (fieldKK op).toNat) :
    Decodes op := by
  have hkk : fieldKK op ∈
      [0x07#8, 0x0A#8, 0x15#8, 0x18#8, 0x1E#8, 0x29#8, 0x33#8, 0x55#8, 0x65#8] := by
    simpa [BitVec.toNat_eq] using h
  simp only [List.mem_cons, List.not_mem_nil, or_false] at hkk
  rcases hkk with hkk | hkk | hkk | hkk | hkk | hkk | hkk | hkk | hkk
  · exact decodes_of_family_low hf hkk decodesAs_readDT
  · exact decodes_of_family_low hf hkk decodesAs_waitKey
  · exact decodes_of_family_low hf hkk decodesAs_setDT
  · exact decodes_of_family_low hf hkk decodesAs_setST
  · exact decodes_of_family_low hf hkk decodesAs_addI
  · exact decodes_of_family_low hf hkk decodesAs_ldFont
  · exact decodes_of_family_low hf hkk decodesAs_storeBcd
  · exact decodes_of_family_low hf hkk decodesAs_storeRegs
  · exact decodes_of_family_low hf hkk decodesAs_loadRegs

/-- Every legal word decodes, family by family: the list of R111 is what the rows of R110 leave out. -/
theorem decodes_of_legal {op : Word} (h : legalWord op = true) : Decodes op := by
  have hfamilies : ∀ f : BitVec 4, f ∈ [0x0#4, 0x1#4, 0x2#4, 0x3#4, 0x4#4, 0x5#4, 0x6#4, 0x7#4,
      0x8#4, 0x9#4, 0xA#4, 0xB#4, 0xC#4, 0xD#4, 0xE#4, 0xF#4] := by decide
  have hf := hfamilies (fieldFamily op)
  simp only [List.mem_cons, List.not_mem_nil, or_false] at hf
  simp only [legalWord, ← toNat_fieldFamily, ← toNat_fieldKK, ← toNat_fieldN] at h
  rcases hf with hf | hf | hf | hf | hf | hf | hf | hf | hf | hf | hf | hf | hf | hf | hf | hf <;>
    simp only [hf, BitVec.reduceToNat, Nat.reduceEqDiff, if_true, if_false, or_true, or_false] at h
  · exact decodes_family0 h
  · exact decodes_of_family hf decodesAs_jp
  · exact decodes_of_family hf decodesAs_call
  · exact decodes_of_family hf decodesAs_seImm
  · exact decodes_of_family hf decodesAs_sneImm
  · exact decodes_of_family_nibble (n := 0x0#4) hf (BitVec.eq_of_toNat_eq (beq_iff_eq.1 h)) decodesAs_seReg
  · exact decodes_of_family hf decodesAs_ldImm
  · exact decodes_of_family hf decodesAs_addImm
  · exact decodes_family8 hf (by simpa using h)
  · exact decodes_of_family_nibble (n := 0x0#4) hf (BitVec.eq_of_toNat_eq (beq_iff_eq.1 h)) decodesAs_sneReg
  · exact decodes_of_family hf decodesAs_ldI
  · exact decodes_of_family hf decodesAs_jpV0
  · exact decodes_of_family hf decodesAs_rnd
  · exact decodes_of_family hf decodesAs_drw
  · exact decodes_familyE hf h
  · exact decodes_familyF hf h

/-- Settles O5: the legal words decode; a word that some row accepts is the word of an instruction, so it is
legal, and an illegal one is accepted by no row. -/
theorem legalWordsDecode : Obligations.LegalWordsDecode := by
  refine fun op => ⟨decodes_of_legal, fun hillegal => ?_⟩
  rcases decode_cases op with ⟨r, hr, haccepts, _⟩ | ⟨_, hdecode⟩
  · have hlegal := legal_encode (r.build op)
    rw [exact_of_mem_rows hr op haccepts, hillegal] at hlegal
    exact absurd hlegal Bool.false_ne_true
  · exact hdecode

/-- Settles O6: two accepting rows are the same row, the one that the search in the table finds. -/
theorem atMostOneRowAccepts : Obligations.AtMostOneRowAccepts := by
  intro r hr q hq op hraccepts hqaccepts
  have hfind := (find_row_of_pairwise rows_pairwise_disjoint hr hraccepts).symm.trans
    (find_row_of_pairwise rows_pairwise_disjoint hq hqaccepts)
  rw [Option.some.inj hfind]

/-- Settles O7: each word is the encoding of its instruction; the last is listed as illegal. -/
theorem sampleWordsDecode : Obligations.SampleWordsDecode :=
  ⟨decode_encode .ret, decode_encode (.call 0xABC#12), decode_encode (.seReg 0x1#4 0x2#4),
    decode_encode (.ldImm 0xA#4 0x42#8), decode_encode (.subReg 0xF#4 0x1#4),
    decode_encode (.jpV0 0x300#12), decode_encode (.drw 0x1#4 0x2#4 0x5#4), decode_encode (.sknp 0x2#4),
    decode_encode (.loadRegs 0x3#4), (legalWordsDecode 0x5121#16).2 (by decide)⟩

end Sys2Proof.Proofs

/-! SUPPORT. What each instruction's own result touches, said once for all 34 (spec/10_state.md R20 to R37,
spec/20_memory.md R61): the frames, `PC`, the stack, memory. -/

namespace Sys2Proof.Proofs

open Sys2Proof.Machine Sys2Proof.Safety

/-! ### Frames -/

/-- What the result of an instruction may change besides `PC`. -/
def touchOf : Instr → State → Touch
  | .cls, _ => { disp := true, drawFlag := true }
  | .ret, _ | .call _, _ => { stack := true }
  | .ldImm x _, _ | .addImm x _, _ | .ldReg x _, _ | .orReg x _, _ | .andReg x _, _ | .xorReg x _, _
  | .readDT x, _ | .waitKey x, _ => { regs := [x] }
  | .addReg x _, _ | .subReg x _, _ | .shr x _, _ | .subn x _, _ | .shl x _, _ => { regs := [x, VF] }
  | .ldI _, _ | .ldFont _, _ => { index := true }
  | .rnd x _, _ => { regs := [x], draws := true }
  | .drw _ _ _, _ => { regs := [VF], disp := true, drawFlag := true }
  | .setDT _, _ => { dt := true }
  | .setST _, _ => { st := true }
  | .addI _, _ => { regs := [VF], index := true }
  | .storeBcd _, s => { base := s.base, count := 3 }
  | .storeRegs x, s => { base := s.base, count := x.toNat + 1 }
  | .loadRegs x, _ => { regs := blockRegs x }
  | .jp _, _ | .jpV0 _, _ | .seImm _ _, _ | .sneImm _ _, _ | .seReg _ _, _ | .sneReg _ _, _ | .skp _, _
  | .sknp _, _ => {}

/-- `PC` is in every frame. -/
theorem frame_pc (k : Touch) (s : State) (p : Word) : Frame k s { s with pc := p } where
  regs _ _ := rfl
  index _ := rfl
  stack _ := rfl
  disp _ := rfl
  drawFlag _ := rfl
  dt _ := rfl
  st _ := rfl
  draws _ := rfl
  bytes _ _ := rfl
  keys := rfl
  fault := rfl
  params := rfl

section
variable {k : Touch} {s t : State} (h : Frame k s t)
include h

/-! A change of a field that the frame lists. -/

theorem frame_then_index (hk : k.index = true) (i : Word) : Frame k s { t with index := i } :=
  { h with index := fun hf => Bool.noConfusion (hk.symm.trans hf) }

theorem frame_then_stack (hk : k.stack = true) (l : List Word) : Frame k s { t with stack := l } :=
  { h with stack := fun hf => Bool.noConfusion (hk.symm.trans hf) }

theorem frame_then_draws (hk : k.draws = true) (n : Nat) : Frame k s { t with draws := n } :=
  { h with draws := fun hf => Bool.noConfusion (hk.symm.trans hf) }

theorem frame_then_screen (hg : k.disp = true) (hf : k.drawFlag = true) (g : Grid) (f : Bool) :
    Frame k s { t with disp := g, drawFlag := f } :=
  { h with
    disp := fun hfalse => Bool.noConfusion (hg.symm.trans hfalse)
    drawFlag := fun hfalse => Bool.noConfusion (hf.symm.trans hfalse) }

theorem frame_then_setReg {x : Reg} (hx : x ∈ k.regs) (b : Byte) : Frame k s (t.setReg x b) :=
  { h with regs := fun r hr => (State.reg_setReg_other t x r b fun hrx => hr (hrx ▸ hx)).trans (h.regs r hr) }

end

theorem mem_blockRegs (x r : Reg) : r ∈ blockRegs x ↔ r.toNat ≤ x.toNat := by
  simp only [blockRegs, List.mem_map, List.mem_range]
  constructor
  · rintro ⟨k, hk, rfl⟩
    rw [BitVec.toNat_ofNat]
    exact (Nat.mod_le k _).trans (Nat.le_of_lt_succ hk)
  · exact fun h => ⟨r.toNat, Nat.lt_succ_of_le h, (BitVec.ofNat_toNat 4 r).trans (BitVec.setWidth_eq r)⟩

/-- The registers after a load of V0 to Vx (R266). -/
theorem reg_setRegs_bytesAt (s t : State) (a : Nat) (x r : Reg) :
    (t.setRegs 0 (s.bytesAt a (blockLength x))).reg r =
      if r.toNat ≤ x.toNat then s.byteAt (a + r.toNat) else t.reg r := by
  have hlen : (s.bytesAt a (blockLength x)).length = x.toNat + 1 := State.length_bytesAt s a (blockLength x)
  rw [State.reg_setRegs _ _ _ (by have := x.isLt; omega), hlen]
  by_cases h : r.toNat ≤ x.toNat
  · rw [if_pos (by omega), if_pos h]
    exact State.getD_bytesAt s a (blockLength x) r.toNat (Nat.lt_succ_of_le h)
  · rw [if_neg (by omega), if_neg h]

/-- A load of V0 to Vx (R266). -/
theorem frame_setRegs (s : State) (x : Reg) (a : Nat) :
    Frame { regs := blockRegs x } s (s.advance.setRegs 0 (s.bytesAt a (blockLength x))) where
  regs r hr := by
    rw [reg_setRegs_bytesAt, if_neg (mt (mem_blockRegs x r).2 hr)]
    rfl
  index _ := State.setRegs_index ..
  stack _ := State.setRegs_stack ..
  disp _ := State.setRegs_disp ..
  drawFlag _ := State.setRegs_drawFlag ..
  dt _ := State.setRegs_dt ..
  st _ := State.setRegs_st ..
  draws _ := State.setRegs_draws ..
  bytes _ _ := State.setRegs_byteAt ..
  keys := State.setRegs_keys ..
  fault := State.setRegs_fault ..
  params := State.setRegs_params ..

/-- Every instruction's result changes only what the spec lists for the instruction. -/
theorem frame_resultOf (i : Instr) (s : State) : Frame (touchOf i s) s (resultOf i s) := by
  cases i with
  | cls => exact frame_cls s
  | ret => exact frame_then_stack (frame_pc { stack := true } s (s.stack.headD s.pc)) rfl s.stack.tail
  | call nnn => exact frame_then_stack (frame_pc { stack := true } s (addressOf nnn)) rfl ((s.pc + 2#16) :: s.stack)
  | jp | jpV0 => exact frame_jump s _
  | seImm | sneImm | seReg | sneReg | skp | sknp => exact frame_skipIf s _
  | ldImm x | addImm x | ldReg x | orReg x | andReg x | xorReg x | readDT x => exact frame_setReg s x _
  | addReg x y | subReg x y | shr x y | subn x y | shl x y =>
    simp only [touchOf, resultOf]
    exact frame_flagThenResult s x _ _
  | ldI | ldFont => exact frame_then_index (frame_pc { index := true } s (s.pc + 2#16)) rfl _
  | rnd x kk =>
    exact frame_then_setReg
      (frame_then_draws (frame_pc { regs := [x], draws := true } s (s.pc + 2#16)) rfl (s.draws + 1))
      (List.mem_singleton_self x) _
  | drw x y n =>
    exact frame_then_screen
      (frame_then_setReg (frame_pc { regs := [VF], disp := true, drawFlag := true } s (s.pc + 2#16))
        (List.mem_singleton_self VF) (collisionFlag (drawnBy x y n s).2)) rfl rfl _ _
  | setDT => exact frame_index_dt_st (fun _ => rfl) nofun fun _ => rfl
  | setST => exact frame_index_dt_st (fun _ => rfl) (fun _ => rfl) nofun
  | addI x =>
    exact frame_then_setReg (frame_then_index (frame_pc { regs := [VF], index := true } s (s.pc + 2#16)) rfl _)
      (List.mem_singleton_self VF) _
  | waitKey x =>
    rw [resultOf]
    split
    · exact frame_setReg s x _
    · exact frame_pc { regs := [x] } s s.pc
  | storeBcd x => exact frame_setBytes s s.base (decimalDigits (s.reg x))
  | storeRegs x =>
    have h := frame_setBytes s s.base (s.regsUpTo x)
    rwa [State.length_regsUpTo] at h
  | loadRegs x => exact frame_setRegs s x s.base

/-! ### The outcome, by the table of faults (R301) -/

theorem exec_of_no_fault_due {i : Instr} {s : State} (h : executeFault i s = none) :
    exec i s = .next (resultOf i s) := by rw [exec_eq, h]

theorem completes_of_no_fault_due {i : Instr} {s : State} {post : State → Prop} (h : executeFault i s = none)
    (hpost : post (resultOf i s)) : Completes i s post :=
  ⟨resultOf i s, exec_of_no_fault_due h, hpost⟩

theorem traps_of_fault_due {i : Instr} {s : State} {cause : Fault} {info : Option Nat}
    (h : executeFault i s = some ⟨cause, info⟩) : Traps i s cause info := by
  rw [Traps, exec_eq, h]
  rfl

/-- An instruction that leaves no fault had none due and left its result. -/
theorem result_of_next_no_fault {i : Instr} {s t : State} (h : exec i s = .next t) (ht : t.fault = none) :
    executeFault i s = none ∧ t = resultOf i s := by
  rw [exec_eq] at h
  cases hdue : executeFault i s <;> rw [hdue] at h <;> cases h
  · exact ⟨rfl, rfl⟩
  · cases ht

/-! ### Who writes what -/

/-- A register in an instruction's frame is one the spec lists as written (R23). -/
theorem writesReg_of_mem_touchOf {i : Instr} {s : State} {r : Reg} (h : r ∈ (touchOf i s).regs) :
    writesReg i r = true := by
  cases i <;> simp_all [touchOf, writesReg, mem_blockRegs]

/-- Settles O46: the result of an instruction changes no register outside its frame, and a taken fault changes
none. -/
theorem registersWrittenOnlyAsListed : Obligations.RegistersWrittenOnlyAsListed := by
  intro i s t r hexec hlisted
  rcases next_cases hexec with rfl | ⟨trap, rfl, _⟩
  · exact (frame_resultOf i s).regs r fun hr => Bool.false_ne_true (hlisted.symm.trans (writesReg_of_mem_touchOf hr))
  · rfl

/-- A byte that changes lies in the block that the frame lists. -/
theorem count_ne_zero_of_byteAt_ne {k : Touch} {s t : State} (h : Frame k s t) {a : Nat}
    (ha : t.byteAt a ≠ s.byteAt a) : k.count ≠ 0 := fun hcount =>
  ha (h.bytes a (by omega))

/-! Which instruction's frame lists a piece of the special state (R29 to R37, R61). -/

theorem touchOf_index {i : Instr} {s : State} (h : (touchOf i s).index = true) :
    (∃ n, i = .ldI n) ∨ (∃ x, i = .addI x) ∨ (∃ x, i = .ldFont x) := by
  cases i <;> simp_all [touchOf]

theorem touchOf_stack {i : Instr} {s : State} (h : (touchOf i s).stack = true) : i = .ret ∨ ∃ n, i = .call n := by
  cases i <;> simp_all [touchOf]

theorem touchOf_disp {i : Instr} {s : State} (h : (touchOf i s).disp = true) :
    i = .cls ∨ ∃ x y n, i = .drw x y n := by
  cases i <;> simp_all [touchOf]

theorem touchOf_drawFlag {i : Instr} {s : State} (h : (touchOf i s).drawFlag = true) :
    i = .cls ∨ ∃ x y n, i = .drw x y n := by
  cases i <;> simp_all [touchOf]

theorem touchOf_dt {i : Instr} {s : State} (h : (touchOf i s).dt = true) : ∃ x, i = .setDT x := by
  cases i <;> simp_all [touchOf]

theorem touchOf_st {i : Instr} {s : State} (h : (touchOf i s).st = true) : ∃ x, i = .setST x := by
  cases i <;> simp_all [touchOf]

theorem touchOf_count {i : Instr} {s : State} (h : (touchOf i s).count ≠ 0) :
    (∃ x, i = .storeBcd x) ∨ (∃ x, i = .storeRegs x) := by
  cases i <;> simp_all [touchOf]

/-- The instructions that write `drawFlag` set it (R37). -/
theorem drawFlag_resultOf {i : Instr} (s : State) (h : i = .cls ∨ ∃ x y n, i = .drw x y n) :
    (resultOf i s).drawFlag = true := by
  rcases h with rfl | ⟨x, y, n, rfl⟩ <;> rfl

/-- Settles O47: what differs in an instruction's result is listed in its frame; a taken fault changes none of
it. -/
theorem specialStateWrittenOnlyAsListed : Obligations.SpecialStateWrittenOnlyAsListed := by
  intro i s t hexec
  rcases next_cases hexec with rfl | ⟨trap, rfl, _⟩
  · have h := frame_resultOf i s
    refine ⟨fun hne => touchOf_index (Bool.of_not_eq_false (mt h.index hne)),
      fun hne => touchOf_stack (Bool.of_not_eq_false (mt h.stack hne)),
      fun hne => touchOf_disp (Bool.of_not_eq_false (mt h.disp hne)), fun hne => ?_,
      fun hne => touchOf_dt (Bool.of_not_eq_false (mt h.dt hne)),
      fun hne => touchOf_st (Bool.of_not_eq_false (mt h.st hne)),
      fun a ha => touchOf_count (count_ne_zero_of_byteAt_ne h ha), h.keys⟩
    have hlisted := touchOf_drawFlag (Bool.of_not_eq_false (mt h.drawFlag hne))
    exact ⟨drawFlag_resultOf s hlisted, hlisted⟩
  · exact ⟨absurd rfl, absurd rfl, absurd rfl, absurd rfl, absurd rfl, absurd rfl, fun a => absurd rfl, rfl⟩

/-! ### Where `PC` goes (R27) -/

/-- The key that `V[x]` numbers, as the skips of family E look it up. -/
theorem getD_keys (s : State) {n : Nat} (h : n < 16) : s.keys.toList.getD n false = s.keys[n]'h := by
  simp [List.getD_eq_getElem?_getD, h]

theorem keyFault_eq_none {x : Reg} {s : State} (h : keyFault x s = none) : (s.reg x).toNat < 16 := by
  unfold keyFault at h
  split at h
  · cases h
  · omega

/-- RET with an entry on the stack goes to it (R131). -/
theorem stack_resultOf_ret {s : State} (h : executeFault .ret s = none) :
    s.stack = (resultOf .ret s).pc :: (resultOf .ret s).stack := by
  cases hs : s.stack <;> simp_all [executeFault, resultOf]

theorem pc_resultOf_waitKey (x : Reg) (s : State) : (resultOf (.waitKey x) s).pc =
    if ∃ k : Fin 16, s.keys[k.val]'k.isLt = true then s.pc + 2#16 else s.pc := by
  rw [resultOf]
  rcases lowestKey_cases s.keys with ⟨k, hlowest, hk, _⟩ | ⟨hlowest, hnone⟩ <;> rw [hlowest]
  · rw [if_pos ⟨k, hk⟩]
    rfl
  · rw [if_neg fun ⟨k, hk⟩ => Bool.false_ne_true ((hnone k).symm.trans hk)]

/-- The indexed jump does not wrap: `nnn + V0` is at most 0x10FE (R202). -/
theorem toNat_indexedTarget (nnn : Addr) (s : State) :
    (indexedTarget nnn s).toNat = nnn.toNat + (s.reg 0x0#4).toNat := by
  have hv := BitVec.toNat_setWidth_of_le (b := s.reg 0x0#4) (show 8 ≤ 16 by decide)
  have := nnn.isLt
  have := (s.reg 0x0#4).isLt
  rw [indexedTarget, BitVec.toNat_add, toNat_addressOf, hv]
  omega

/-- Settles O48: an instruction that leaves no fault left its result, whose `PC` is as listed. -/
theorem pcAfterInstruction : Obligations.PcAfterInstruction := by
  intro i s t hexec _ ht
  obtain ⟨hdue, rfl⟩ := result_of_next_no_fault hexec ht
  cases i with
  | jp nnn | call nnn => exact toNat_addressOf nnn
  | jpV0 nnn => exact toNat_indexedTarget nnn s
  | ret => exact stack_resultOf_ret hdue
  | seImm | seReg => exact pc_skipIf s _ _ beq_iff_eq
  | sneImm | sneReg => exact pc_skipIf s _ _ bne_iff_ne
  | skp x =>
    have hx := keyFault_eq_none hdue
    exact ⟨hx, pc_skipIf s _ _ (by rw [getD_keys s hx])⟩
  | sknp x =>
    have hx := keyFault_eq_none hdue
    exact ⟨hx, pc_skipIf s _ _ (by rw [getD_keys s hx, Bool.not_eq_true'])⟩
  | waitKey x => exact pc_resultOf_waitKey x s
  | storeBcd | storeRegs => exact State.setBytes_pc _ _ _
  | loadRegs => exact State.setRegs_pc _ _ _
  | _ => rfl

end Sys2Proof.Proofs

/-! SUPPORT. The invariants of the core (spec/10_state.md R28, R30, R31; spec/60_exceptions.md R301, R305, R306):
every STEP and every host operation keeps them. -/

namespace Sys2Proof.Proofs

open Sys2Proof.Machine Sys2Proof.Safety

/-! ### Memory -/

/-- An instruction's result has the memory of before, or is a block write from `I` on (R61). -/
theorem mem_resultOf (i : Instr) (s : State) :
    (resultOf i s).mem = s.mem ∨ ∃ bytes, resultOf i s = s.advance.setBytes s.base bytes := by
  cases i with
  | storeBcd x => exact .inr ⟨decimalDigits (s.reg x), rfl⟩
  | storeRegs x => exact .inr ⟨s.regsUpTo x, rfl⟩
  | seImm | sneImm | seReg | sneReg | skp | sknp =>
    left
    simp only [resultOf, skipIf]
    split <;> rfl
  | waitKey =>
    left
    rw [resultOf]
    split <;> rfl
  | loadRegs => exact .inl (State.setRegs_mem _ _ _)
  | _ => exact .inl rfl

theorem params_resultOf (i : Instr) (s : State) : (resultOf i s).params = s.params := (frame_resultOf i s).params

theorem memoryCanonical_congr {s t : State} (h : MemoryCanonical s) (hmem : t.mem = s.mem)
    (hparams : t.params = s.params) : MemoryCanonical t := by
  rw [MemoryCanonical, hmem, hparams]
  exact h

theorem memoryCanonical_resultOf (i : Instr) {s : State} (h : MemoryCanonical s) :
    MemoryCanonical (resultOf i s) := by
  rcases mem_resultOf i s with hmem | ⟨bytes, hresult⟩
  · exact memoryCanonical_congr h hmem (params_resultOf i s)
  · rw [hresult]
    exact State.wf_setBytes s.base bytes (s := s.advance) h

/-! ### One STEP -/

/-- Only FETCH raises FetchOutOfRange (R301). -/
theorem not_causesOf_fetchOutOfRange (i : Instr) : Fault.fetchOutOfRange ∉ causesOf i := by
  cases i <;> simp [causesOf]

/-- Everything a STEP can leave: a fault taken, or the result of the fetched instruction when no fault is due;
the core was not halted. -/
theorem step_result_cases {s t : State} (h : step s = .next t) :
    s.fault = none ∧
    ((∃ opcode trap, t = takeFault opcode trap s ∧ (opcode = none ↔ trap.cause = .fetchOutOfRange) ∧
        infoFits trap.cause trap.info = true) ∨
      ∃ i, s.pc.toNat ≤ 0xFFE ∧ decode s.fetchedWord = .ok i ∧ executeFault i s = none ∧
        t = resultOf i s) := by
  obtain ⟨hfault, ⟨hpc, rfl⟩ | ⟨_, rfl⟩ | ⟨i, hpc, hdecode, hexec⟩⟩ := step_cases h
  · exact ⟨hfault, .inl ⟨_, _, rfl, by simp, by simp [infoFits]⟩⟩
  · exact ⟨hfault, .inl ⟨_, _, rfl, by simp, rfl⟩⟩
  · refine ⟨hfault, ?_⟩
    rw [exec_eq] at hexec
    cases hdue : executeFault i s with
    | none =>
      rw [hdue] at hexec
      cases hexec
      exact .inr ⟨i, hpc, hdecode, hdue, rfl⟩
    | some trap =>
      rw [hdue] at hexec
      cases hexec
      obtain ⟨hcause, hinfo⟩ := executeFault_sound hdue
      have hnotFetch : trap.cause ≠ .fetchOutOfRange := fun h => not_causesOf_fetchOutOfRange i (h ▸ hcause)
      exact .inl ⟨_, trap, rfl, iff_of_false (Option.some_ne_none _) hnotFetch, hinfo⟩

/-- Settles O42: a taken fault leaves memory alone, and an instruction's result is canonical. -/
theorem stepKeepsMemoryCanonical : Obligations.StepKeepsMemoryCanonical := by
  intro s t h hstep
  obtain ⟨_, ⟨_, _, rfl, _⟩ | ⟨i, _, _, _, rfl⟩⟩ := step_result_cases hstep
  · exact h
  · exact memoryCanonical_resultOf i h

/-! ### `PC` and the return addresses -/

theorem toNat_add_le {p : Word} (hp : p.toNat ≤ 0xFFE) (d : Word) (hd : d.toNat ≤ 4) :
    (p + d).toNat ≤ 0xFFE + d.toNat := by
  rw [BitVec.toNat_add]
  omega

theorem toNat_skipPc_le {s : State} (hpc : s.pc.toNat ≤ 0xFFE) (cond : Prop) [Decidable cond] :
    (skipPc cond s).toNat ≤ 0x10FE := by
  unfold skipPc
  split
  · exact (toNat_add_le hpc 4#16 (by decide)).trans (by decide)
  · exact (toNat_add_le hpc 2#16 (by decide)).trans (by decide)

/-- Where an instruction that was fetched and leaves no fault puts `PC` (R28): the farthest is the indexed jump,
0xFFF + 0xFF. -/
theorem pc_le_of_next {i : Instr} {s t : State} (hexec : exec i s = .next t) (hs : s.fault = none)
    (ht : t.fault = none) (hpc : s.pc.toNat ≤ 0xFFE) (hstack : ∀ a ∈ s.stack, a.toNat ≤ 0x1000) :
    t.pc.toNat ≤ 0x10FE := by
  have h := pcAfterInstruction i s t hexec hs ht
  have hnext : (s.pc + 2#16).toNat ≤ 0x10FE := (toNat_add_le hpc 2#16 (by decide)).trans (by decide)
  cases i with
  | jp nnn | call nnn => exact h.trans_le (nnn.isLt.le.trans (by decide))
  | jpV0 nnn =>
    have := nnn.isLt
    have := (s.reg 0x0#4).isLt
    dsimp only at h
    omega
  | ret => exact (hstack t.pc (by rw [show s.stack = _ from h]; exact List.mem_cons_self)).trans (by decide)
  | seImm | sneImm | seReg | sneReg => exact h ▸ toNat_skipPc_le hpc _
  | skp | sknp =>
    obtain ⟨_, h⟩ := h
    exact h ▸ toNat_skipPc_le hpc _
  | waitKey =>
    dsimp only at h
    split at h
    · exact h ▸ hnext
    · rw [h]; omega
  | _ => exact (congrArg BitVec.toNat h).trans_le hnext

theorem stack_le_resultOf (i : Instr) {s : State} (hpc : s.pc.toNat ≤ 0xFFE)
    (hstack : ∀ a ∈ s.stack, a.toNat ≤ 0x1000) : ∀ a ∈ (resultOf i s).stack, a.toNat ≤ 0x1000 := by
  by_cases h : (touchOf i s).stack = true
  · obtain rfl | ⟨nnn, rfl⟩ := touchOf_stack h
    · exact fun a ha => hstack a (List.mem_of_mem_tail ha)
    · exact List.forall_mem_cons.2 ⟨toNat_add_le hpc 2#16 (by decide), hstack⟩
  · rw [(frame_resultOf i s).stack (Bool.eq_false_of_not_eq_true h)]
    exact hstack

/-- Settles O43: a taken fault leaves `PC` and the stack alone; an instruction's `PC` is bounded by where it
goes, and only CALL pushes, the address after an instruction that was fetched. -/
theorem stepKeepsPcInRange : Obligations.StepKeepsPcInRange := by
  intro s t ⟨hpc, hstack⟩ hstep
  obtain ⟨hfault, ⟨_, _, rfl, _⟩ | ⟨i, hfetched, _, hdue, rfl⟩⟩ := step_result_cases hstep
  · exact ⟨hpc, hstack⟩
  · exact ⟨pc_le_of_next (exec_of_no_fault_due hdue) hfault ((fault_resultOf i s).trans hfault) hfetched hstack,
      stack_le_resultOf i hfetched hstack⟩

/-! ### The stack's depth and the fault record -/

theorem stackWithinDepth_resultOf {i : Instr} {s : State} (hdue : executeFault i s = none) (h : StackWithinDepth s) :
    StackWithinDepth (resultOf i s) := by
  intro depth hdepth
  rw [params_resultOf] at hdepth
  have hle := h depth hdepth
  by_cases hlisted : (touchOf i s).stack = true
  · obtain rfl | ⟨nnn, rfl⟩ := touchOf_stack hlisted
    · exact s.stack.tail_sublist.length_le.trans hle
    · have hroom : s.stack.length ≠ depth := by
        rintro rfl
        simp [executeFault, hdepth] at hdue
      exact Nat.lt_of_le_of_ne hle hroom
  · rwa [(frame_resultOf i s).stack (Bool.eq_false_of_not_eq_true hlisted)]

theorem recordSound_of_no_fault {s : State} (h : s.fault = none) : RecordSound s := fun _ hrecord =>
  nomatch h.symm.trans hrecord

theorem recordSound_takeFault {opcode : Option Word} {trap : Trap} {s : State}
    (hopcode : opcode = none ↔ trap.cause = .fetchOutOfRange) (hinfo : infoFits trap.cause trap.info = true) :
    RecordSound (takeFault opcode trap s) := by
  rintro _ ⟨⟩
  exact ⟨rfl, hopcode, hinfo⟩

theorem inv_step {s t : State} (h : Inv s) (hstep : step s = .next t) : Inv t := by
  refine ⟨stepKeepsMemoryCanonical s t h.memory hstep, stepKeepsPcInRange s t h.pc hstep, ?_, ?_⟩ <;>
    obtain ⟨hfault, ⟨_, _, rfl, hopcode, hinfo⟩ | ⟨i, _, _, hdue, rfl⟩⟩ := step_result_cases hstep
  · exact h.stack
  · exact stackWithinDepth_resultOf hdue h.stack
  · exact recordSound_takeFault hopcode hinfo
  · exact recordSound_of_no_fault ((fault_resultOf i s).trans hfault)

/-! ### The host's operations -/

theorem inv_hostReset (s : State) : Inv (hostReset s) where
  memory := rfl
  pc := ⟨show (0x200#16 : Word).toNat ≤ 0x10FE by decide, nofun⟩
  stack := fun _ _ => Nat.zero_le _
  record := recordSound_of_no_fault rfl

/-- The invariants do not look at the keys, the timers or `drawFlag`. -/
theorem inv_of_devices {s : State} (h : Inv s) (keys : Vector Bool 16) (dt st : Byte) (drawFlag : Bool) :
    Inv { s with keys := keys, dt := dt, st := st, drawFlag := drawFlag } :=
  ⟨h.memory, h.pc, h.stack, h.record⟩

theorem inv_setBytes {s : State} (h : Inv s) (a : Nat) (bytes : List Byte) : Inv (s.setBytes a bytes) where
  memory := State.wf_setBytes a bytes h.memory
  pc := by simpa only [PcInRange, State.setBytes_pc, State.setBytes_stack] using h.pc
  stack := by simpa only [StackWithinDepth, State.setBytes_params, State.setBytes_stack] using h.stack
  record := by simpa only [RecordSound, State.setBytes_fault, State.setBytes_pc] using h.record

theorem inv_hostStep {s : State} (h : Inv s) : Inv (hostStep s).1 := by
  unfold hostStep
  split
  · next t hstep =>
    split <;> exact inv_step h hstep
  · exact h
  · exact h

/-- Every host operation keeps the invariants: RESET sets them up, LOAD writes memory, a STEP keeps them, and the
others write only keys, timers and `drawFlag`. -/
theorem inv_hostOp (op : HostOp) {s : State} (h : Inv s) : Inv (hostOp op s).1 := by
  cases op with
  | reset => exact inv_hostReset s
  | load bytes =>
    by_cases hfits : bytes.length ≤ programMax
    · rw [hostOp_load_of_le hfits]
      exact inv_setBytes h programBase bytes
    · rw [hostOp_load_of_gt (Nat.lt_of_not_le hfits)]
      exact h
  | step => exact inv_hostStep h
  | setKeys k => exact inv_of_devices h (keysOf k) s.dt s.st s.drawFlag
  | tick => exact inv_of_devices h s.keys (countDown s.dt) (countDown s.st) s.drawFlag
  | clearDraw => exact inv_of_devices h s.keys s.dt s.st false
  | readDisplay | readFlags => exact h

/-- Settles O45: by induction on the operations. -/
theorem hostRunsKeepInvariants : Obligations.HostRunsKeepInvariants := by
  intro ops
  induction ops with
  | nil => exact fun s h => h
  | cons op ops ih => exact fun s h => ih _ (inv_hostOp op h)

/-- Settles O44: RESET leaves an empty stack, empty memory, `PC` at 0x200 and no fault record, whatever the
parameters; `State.reset` is the RESET of itself. -/
theorem resetMeetsInvariants : Obligations.ResetMeetsInvariants :=
  ⟨⟨inv_hostReset State.reset, rfl⟩, fun s => ⟨inv_hostReset s, rfl⟩⟩

end Sys2Proof.Proofs

/-! SUPPORT. CALL and RET (spec/10_state.md R31, R32; spec/40_family0_screen_return.md R131;
spec/41_family1to5_jump_call_skip.md R142). -/

namespace Sys2Proof.Proofs

open Sys2Proof.Machine Sys2Proof.Safety

theorem completes_ret {s : State} {a : Word} {rest : List Word} (hs : s.stack = a :: rest) :
    Completes .ret s fun t => t.pc = a ∧ t.stack = rest ∧ Frame { stack := true } s t :=
  completes_of_no_fault_due (by simp [executeFault, hs])
    ⟨by simp [resultOf, hs], by simp [resultOf, hs], frame_resultOf .ret s⟩

theorem completes_call (nnn : Addr) {s : State} (hroom : s.params.stackDepth ≠ some s.stack.length) :
    Completes (.call nnn) s fun t =>
      t.pc.toNat = nnn.toNat ∧ t.stack = nextPc s :: s.stack ∧ Frame { stack := true } s t :=
  completes_of_no_fault_due (if_neg hroom) ⟨toNat_addressOf nnn, rfl, frame_resultOf (.call nnn) s⟩

/-- Settles O9: RET's fault is due exactly on an empty stack. -/
theorem retPopsOrUnderflows : Obligations.RetPopsOrUnderflows :=
  ⟨decodesAs_ret, fun _ => ⟨fun _ _ => completes_ret, fun hempty => traps_of_fault_due (if_pos hempty)⟩⟩

/-- Settles O11: CALL's fault is due exactly on a full stack. -/
theorem callPushesOrOverflows : Obligations.CallPushesOrOverflows :=
  ⟨decodesAs_call, fun nnn _ => ⟨completes_call nnn, fun hfull => traps_of_fault_due (if_pos hfull)⟩⟩

/-- Settles O12: RET pops the address that CALL pushed. -/
theorem retUndoesCall : Obligations.RetUndoesCall := by
  intro nnn s hroom
  obtain ⟨t, hcall, _, hstack, _⟩ := completes_call nnn hroom
  refine ⟨t, hcall, fun u hu => ?_⟩
  obtain ⟨w, hret, hpc, hrest, _⟩ := completes_ret (hu.trans hstack)
  exact ⟨w, hret, hpc, hrest⟩

end Sys2Proof.Proofs

/-! SUPPORT. Family 8, the arithmetic with a flag in VF (spec/43_family8_alu.md R170 to R183). -/

namespace Sys2Proof.Proofs

open Sys2Proof.Machine Sys2Proof.Safety

/-! ### The flag write and then the result (R171) -/

theorem completes_mono {i : Instr} {s : State} {post post' : State → Prop} (h : Completes i s post)
    (himp : ∀ t, post t → post' t) : Completes i s post' := by
  obtain ⟨t, hexec, ht⟩ := h
  exact ⟨t, hexec, himp t ht⟩

theorem post_of_completes {i : Instr} {s t : State} {post : State → Prop} (h : Completes i s post)
    (hexec : exec i s = .next t) : post t := by
  obtain ⟨u, hu, hpost⟩ := h
  rw [hexec] at hu
  cases hu
  exact hpost

/-- What an operand reads after the flag write: the flag where it is VF, else its old value. -/
def afterFlag (s : State) (flag : Byte) (r : Reg) : Byte := if r = VF then flag else s.reg r

theorem reg_setReg_VF (s : State) (flag : Byte) (r : Reg) :
    (s.advance.setReg VF flag).reg r = afterFlag s flag r := by
  rw [State.reg_setReg, afterFlag]
  exact if_congr eq_comm rfl rfl

@[simp] theorem afterFlag_VF (s : State) (flag : Byte) : afterFlag s flag VF = flag := if_pos rfl

theorem afterFlag_of_ne {s : State} {flag : Byte} {r : Reg} (h : r ≠ VF) : afterFlag s flag r = s.reg r := if_neg h

/-- What the flag write and the result write leave: the flag in VF unless the result went there. -/
structure WroteFlagThenResult (s : State) (x : Reg) (flag result : Byte) (t : State) : Prop where
  result : t.reg x = result
  flag : x ≠ VF → t.reg VF = flag
  pc : t.pc = nextPc s
  frame : Frame { regs := [x, VF] } s t

theorem wroteFlagThenResult (s : State) (x : Reg) (flag : Byte) (result : State → Byte) :
    WroteFlagThenResult s x flag (result (s.advance.setReg VF flag)) (flagThenResult x flag result s.advance) where
  result := by rw [reg_flagThenResult, if_pos rfl]
  flag hx := by rw [reg_flagThenResult, if_neg hx, if_pos rfl]
  pc := rfl
  frame := frame_flagThenResult s x flag result

/-! ### ALIAS_POLICY (R172) -/

/-- For the five instructions that can raise AliasRefused, nothing else is due. -/
theorem executeFault_of_aliasRefused {i : Instr} (hi : Fault.aliasRefused ∈ causesOf i) (s : State) :
    executeFault i s = aliasFault (aliasListed i) s := by
  cases i with
  | addReg | subReg | shr | subn | shl => rfl
  | _ => simp [causesOf] at hi

theorem aliasRefused_mem_of_listed {i : Instr} (h : aliasListed i = true) : Fault.aliasRefused ∈ causesOf i := by
  cases i with
  | addReg | subReg | shr | subn | shl => exact List.mem_singleton_self _
  | _ => simp [aliasListed] at h

/-- The form is not refused: the policy is `sequential` or the form is not listed. -/
def Allowed (i : Instr) (s : State) : Prop := s.params.aliasPolicy = .sequential ∨ aliasListed i = false

theorem executeFault_of_allowed {i : Instr} {s : State} (hi : Fault.aliasRefused ∈ causesOf i) (h : Allowed i s) :
    executeFault i s = none := by
  rw [executeFault_of_aliasRefused hi, aliasFault_none h]

theorem traps_of_refused {i : Instr} {s : State} (hpolicy : s.params.aliasPolicy = .refuse)
    (hlisted : aliasListed i = true) : Traps i s .aliasRefused none :=
  traps_of_fault_due <| by
    rw [executeFault_of_aliasRefused (aliasRefused_mem_of_listed hlisted), aliasFault_some hpolicy hlisted]

/-- Settles O24: a listed form has AliasRefused due exactly under `refuse`, and no other cause is AliasRefused. -/
theorem aliasRefusedExactlyWhenListed : Obligations.AliasRefusedExactlyWhenListed := by
  refine fun i s hs => ⟨traps_of_refused, fun hallowed t record hexec hrecord hcause => ?_⟩
  rcases next_cases hexec with rfl | ⟨trap, rfl, hmem, _⟩
  · rw [fault_resultOf, hs] at hrecord
    cases hrecord
  · cases hrecord
    have hdue := executeFault_of_allowed (hcause ▸ hmem) hallowed
    rw [exec_of_no_fault_due hdue] at hexec
    have hfault := congrArg State.fault (Host.Outcome.next.inj hexec)
    rw [fault_resultOf, hs] at hfault
    cases hfault

/-! ### The five instructions -/

/-- An allowed form that leaves a flag write and a result write. -/
theorem completes_of_allowed {i : Instr} {s : State} {x : Reg} {flag value : Byte} {result : State → Byte}
    (hi : Fault.aliasRefused ∈ causesOf i) (h : Allowed i s)
    (hresult : resultOf i s = flagThenResult x flag result s.advance)
    (hvalue : result (s.advance.setReg VF flag) = value) : Completes i s (WroteFlagThenResult s x flag value) :=
  completes_of_no_fault_due (executeFault_of_allowed hi h)
    (hresult ▸ hvalue ▸ wroteFlagThenResult s x flag result)

theorem completes_addReg {x y : Reg} {s : State} (h : Allowed (.addReg x y) s) :
    Completes (.addReg x y) s
      (WroteFlagThenResult s x (carryFlag (s.reg x) (s.reg y)) (addResult (s.reg x) (s.reg y))) :=
  completes_of_allowed (List.mem_singleton_self _) h (by rw [resultOf]) rfl

theorem completes_subReg {x y : Reg} {s : State} (h : Allowed (.subReg x y) s) {c : Byte}
    (hc : c = greaterFlag (s.reg x) (s.reg y)) :
    Completes (.subReg x y) s
      (WroteFlagThenResult s x c (subResult (afterFlag s c x) (afterFlag s c y))) :=
  completes_of_allowed (List.mem_singleton_self _) h (by rw [resultOf, hc])
    (congrArg₂ subResult (reg_setReg_VF s c x) (reg_setReg_VF s c y))

theorem completes_subn {x y : Reg} {s : State} (h : Allowed (.subn x y) s) {c : Byte}
    (hc : c = greaterFlag (s.reg y) (s.reg x)) :
    Completes (.subn x y) s
      (WroteFlagThenResult s x c (subResult (afterFlag s c y) (afterFlag s c x))) :=
  completes_of_allowed (List.mem_singleton_self _) h (by rw [resultOf, hc])
    (congrArg₂ subResult (reg_setReg_VF s c y) (reg_setReg_VF s c x))

theorem completes_shr {x y : Reg} {s : State} (h : Allowed (.shr x y) s) :
    Completes (.shr x y) s
      (WroteFlagThenResult s x (shrFlag (s.reg x)) (shrResult (afterFlag s (shrFlag (s.reg x)) x))) :=
  completes_of_allowed (List.mem_singleton_self _) h (by rw [resultOf])
    (congrArg shrResult (reg_setReg_VF s (shrFlag (s.reg x)) x))

theorem completes_shl {x y : Reg} {s : State} (h : Allowed (.shl x y) s) :
    Completes (.shl x y) s
      (WroteFlagThenResult s x (shlFlag (s.reg x)) (shlResult (afterFlag s (shlFlag (s.reg x)) x))) :=
  completes_of_allowed (List.mem_singleton_self _) h (by rw [resultOf])
    (congrArg shlResult (reg_setReg_VF s (shlFlag (s.reg x)) x))

/-! ### Results and flags as numbers (R178 to R183) -/

theorem toNat_subResult (a b : Byte) : (subResult a b).toNat = (256 + a.toNat - b.toNat) % 256 := by
  have := b.isLt
  rw [subResult, BitVec.toNat_sub]
  congr 1
  omega

theorem toNat_shrFlag (a : Byte) : (shrFlag a).toNat = a.toNat % 2 := by
  rw [shrFlag, BitVec.toNat_and]
  exact Nat.and_one_is_mod a.toNat

theorem toNat_shrResult (a : Byte) : (shrResult a).toNat = a.toNat / 2 := by
  rw [shrResult, BitVec.toNat_ushiftRight, Nat.shiftRight_eq_div_pow, pow_one]

theorem toNat_shlResult (a : Byte) : (shlResult a).toNat = a.toNat * 2 % 256 := by
  rw [shlResult, BitVec.toNat_shiftLeft, Nat.shiftLeft_eq, pow_one]

theorem shrFlag_eq_ite (a : Byte) : shrFlag a = if a.getLsbD 0 = true then 1#8 else 0#8 :=
  BitVec.and_twoPow a 0

theorem shlFlag_eq_ite (a : Byte) : shlFlag a = if a.getLsbD 7 = true then 0x80#8 else 0#8 :=
  BitVec.and_twoPow a 7

theorem toNat_shlFlag (a : Byte) : (shlFlag a).toNat = if 128 ≤ a.toNat then 0x80 else 0x00 := by
  have hmsb : a.getLsbD 7 = decide (128 ≤ a.toNat) := BitVec.msb_eq_decide a
  rw [shlFlag_eq_ite, hmsb, apply_ite BitVec.toNat]
  exact if_congr decide_eq_true_iff rfl rfl

/-! ### The statements -/

theorem allowed_of_ne_VF {i : Instr} {x : Reg} {s : State} (hlisted : aliasListed i = (x == VF))
    (h : s.params.aliasPolicy = .sequential ∨ x ≠ VF) : Allowed i s :=
  h.imp_right fun hx => hlisted.trans (beq_false_of_ne hx)

theorem allowed_of_both_ne_VF {i : Instr} {x y : Reg} {s : State} (hlisted : aliasListed i = (x == VF || y == VF))
    (h : s.params.aliasPolicy = .sequential ∨ (x ≠ VF ∧ y ≠ VF)) : Allowed i s :=
  h.imp_right fun ⟨hx, hy⟩ => by rw [hlisted, beq_false_of_ne hx, beq_false_of_ne hy, Bool.or_self]

theorem listed_of_eq_VF {x y : Reg} (h : x = VF ∨ y = VF) : (x == VF || y == VF) = true := by
  rwa [Bool.or_eq_true, beq_iff_eq, beq_iff_eq]

/-- Settles O17: the sum and the carry are both of the old values. -/
theorem addWithCarry : Obligations.AddWithCarry := by
  refine ⟨decodesAs_addReg, fun x y s => ⟨fun h => ?_, fun hp hx => traps_of_refused hp (beq_iff_eq.2 hx)⟩⟩
  refine completes_mono (completes_addReg (allowed_of_ne_VF rfl h)) fun t ⟨hreg, hflag, hpc, hframe⟩ => ?_
  exact ⟨by rw [hreg, toNat_addResult], hflag, hpc, hframe⟩

/-- Settles O18: the difference is of the operands as the flag write left them. -/
theorem subtractStrictFlag : Obligations.SubtractStrictFlag := by
  refine ⟨decodesAs_subReg, fun x y s c hc =>
    ⟨fun h => ?_, fun hp hxy => traps_of_refused hp (listed_of_eq_VF hxy)⟩⟩
  refine completes_mono (completes_subReg (allowed_of_both_ne_VF rfl h) hc) fun t ⟨hreg, hflag, hpc, hframe⟩ => ?_
  exact ⟨by rw [hreg, toNat_subResult]; rfl, hflag, hpc, hframe⟩

/-- Settles O19: the same with the operands exchanged. -/
theorem reverseSubtractStrictFlag : Obligations.ReverseSubtractStrictFlag := by
  refine ⟨decodesAs_subn, fun x y s c hc =>
    ⟨fun h => ?_, fun hp hxy => traps_of_refused hp (listed_of_eq_VF hxy)⟩⟩
  refine completes_mono (completes_subn (allowed_of_both_ne_VF rfl h) hc) fun t ⟨hreg, hflag, hpc, hframe⟩ => ?_
  exact ⟨by rw [hreg, toNat_subResult]; rfl, hflag, hpc, hframe⟩

/-- Shifting right what SHR left in VF gives 0 (R171): the flag is 0 or 1. -/
theorem toNat_shrResult_afterFlag (s : State) (x : Reg) :
    (shrResult (afterFlag s (shrFlag (s.reg x)) x)).toNat = if x = VF then 0 else (s.reg x).toNat / 2 := by
  rw [toNat_shrResult, afterFlag]
  split
  · rw [toNat_shrFlag]
    omega
  · rfl

/-- Shifting left what SHL left in VF gives 0 (R171): the flag is 0x00 or 0x80. -/
theorem toNat_shlResult_afterFlag (s : State) (x : Reg) :
    (shlResult (afterFlag s (shlFlag (s.reg x)) x)).toNat = if x = VF then 0 else (s.reg x).toNat * 2 % 256 := by
  rw [toNat_shlResult, afterFlag]
  split
  · rw [toNat_shlFlag]
    split <;> rfl
  · rfl

theorem completes_shr_toNat {x y : Reg} {s : State} (h : s.params.aliasPolicy = .sequential ∨ x ≠ VF) :
    Completes (.shr x y) s fun t =>
      (t.reg x).toNat = (if x = VF then 0 else (s.reg x).toNat / 2) ∧
      (x ≠ VF → (t.reg VF).toNat = (s.reg x).toNat % 2) ∧
      t.pc = nextPc s ∧ Frame { regs := [x, VF] } s t := by
  refine completes_mono (completes_shr (allowed_of_ne_VF rfl h)) fun t ⟨hreg, hflag, hpc, hframe⟩ => ?_
  exact ⟨by rw [hreg, toNat_shrResult_afterFlag], fun hx => by rw [hflag hx, toNat_shrFlag], hpc, hframe⟩

theorem completes_shl_toNat {x y : Reg} {s : State} (h : s.params.aliasPolicy = .sequential ∨ x ≠ VF) :
    Completes (.shl x y) s fun t =>
      (t.reg x).toNat = (if x = VF then 0 else (s.reg x).toNat * 2 % 256) ∧
      (x ≠ VF → (t.reg VF).toNat = if 128 ≤ (s.reg x).toNat then 0x80 else 0x00) ∧
      t.pc = nextPc s ∧ Frame { regs := [x, VF] } s t := by
  refine completes_mono (completes_shl (allowed_of_ne_VF rfl h)) fun t ⟨hreg, hflag, hpc, hframe⟩ => ?_
  exact ⟨by rw [hreg, toNat_shlResult_afterFlag], fun hx => by rw [hflag hx, toNat_shlFlag], hpc, hframe⟩

/-- Settles O20: each shift reads its register after the flag write, which matters for VF alone. -/
theorem shifts : Obligations.Shifts :=
  ⟨decodesAs_shr, decodesAs_shl, fun _ _ _ =>
    ⟨fun h => ⟨completes_shr_toNat h, completes_shl_toNat h⟩, fun hp hx =>
      ⟨traps_of_refused hp (beq_iff_eq.2 hx), traps_of_refused hp (beq_iff_eq.2 hx)⟩⟩⟩

/-- Settles O21: with no fault due the shifts leave their results, which do not mention `y`; only the opcode of a
refused form's fault record would. -/
theorem shiftsIgnoreY : Obligations.ShiftsIgnoreY := by
  intro x y y' s h
  have hdue : ∀ {i : Instr}, Fault.aliasRefused ∈ causesOf i → aliasListed i = (x == VF) →
      exec i s = .next (resultOf i s) := fun hi hlisted =>
    exec_of_no_fault_due (executeFault_of_allowed hi (allowed_of_ne_VF hlisted h))
  constructor
  · rw [hdue (i := .shr x y) (List.mem_singleton_self _) rfl, hdue (i := .shr x y') (List.mem_singleton_self _) rfl]
    rfl
  · rw [hdue (i := .shl x y) (List.mem_singleton_self _) rfl, hdue (i := .shl x y') (List.mem_singleton_self _) rfl]
    rfl

/-! ### The flag laws (R173) -/

theorem ite_one_zero_eq_one (p : Prop) [Decidable p] : (if p then 1#8 else 0#8) = 1#8 ↔ p := by
  by_cases h : p <;> simp [h]

theorem ite_one_zero_cases (p : Prop) [Decidable p] :
    (if p then 1#8 else 0#8) = 0#8 ∨ (if p then 1#8 else 0#8) = 1#8 := by
  by_cases h : p <;> simp [h]

/-- The exact sum from the wrapped sum and the carry. -/
theorem addSum_eq (a b : Byte) : a.toNat + b.toNat = (addResult a b).toNat + 256 * (carryFlag a b).toNat := by
  have := a.isLt
  have := b.isLt
  rw [toNat_addResult, carryFlag, addSum]
  split
  · rw [show (1#8 : Byte).toNat = 1 from rfl]
    omega
  · rw [show (0#8 : Byte).toNat = 0 from rfl]
    omega

/-- Settles O22: each flag is the `if` of its rule, and no operand is VF, so no form is refused. -/
theorem flagLaws : Obligations.FlagLaws := by
  intro x y s t hx hy
  refine ⟨fun hexec => ?_, fun hexec => ?_, fun hexec => ?_, fun hexec => ?_, fun hexec => ?_⟩
  · obtain ⟨hreg, hflag, _⟩ := post_of_completes (completes_addReg (allowed_of_ne_VF rfl (.inr hx))) hexec
    rw [hreg, hflag hx]
    exact ⟨addSum_eq _ _, ite_one_zero_eq_one _⟩
  · have hallowed : Allowed (.subReg x y) s := allowed_of_both_ne_VF rfl (.inr ⟨hx, hy⟩)
    obtain ⟨_, hflag, _⟩ := post_of_completes (completes_subReg hallowed rfl) hexec
    rw [hflag hx]
    exact ⟨ite_one_zero_eq_one _, ite_one_zero_cases _⟩
  · have hallowed : Allowed (.subn x y) s := allowed_of_both_ne_VF rfl (.inr ⟨hx, hy⟩)
    obtain ⟨_, hflag, _⟩ := post_of_completes (completes_subn hallowed rfl) hexec
    rw [hflag hx]
    exact ⟨ite_one_zero_eq_one _, ite_one_zero_cases _⟩
  · obtain ⟨_, hflag, _⟩ := post_of_completes (completes_shr (allowed_of_ne_VF rfl (.inr hx))) hexec
    rw [hflag hx, shrFlag_eq_ite]
    exact ⟨ite_one_zero_eq_one _, ite_one_zero_cases _⟩
  · obtain ⟨_, hflag, _⟩ := post_of_completes (completes_shl (allowed_of_ne_VF rfl (.inr hx))) hexec
    rw [hflag hx, shlFlag_eq_ite]
    cases (s.reg x).getLsbD 7 <;> simp

/-! ### VF as an operand (R171) -/

theorem addResult_eq_add (a b : Byte) : addResult a b = a + b :=
  BitVec.eq_of_toNat_eq ((toNat_addResult a b).trans (BitVec.toNat_add a b).symm)

theorem shrResult_shrFlag (a : Byte) : shrResult (shrFlag a) = 0#8 := by
  apply BitVec.eq_of_toNat_eq
  rw [toNat_shrResult, toNat_shrFlag, BitVec.toNat_ofNat]
  omega

theorem shlResult_shlFlag (a : Byte) : shlResult (shlFlag a) = 0#8 := by
  rw [shlFlag_eq_ite]
  split <;> rfl

/-- 8xy0 to 8xy3: VF is an ordinary destination and source. -/
theorem completes_reg {i : Instr} {s : State} {x : Reg} {b : Byte} (hexec : exec i s = .next (s.advance.setReg x b)) :
    Completes i s fun t => t.reg x = b :=
  completes_mono (completes_of_exec_setReg hexec) fun _ ⟨hreg, _⟩ => hreg

/-- Settles O23: each entry is the rule of its instruction at that choice of registers. -/
theorem aliasTable : Obligations.AliasTable := by
  rintro s q hseq hq _ _ rfl rfl
  have hallowed : ∀ i, Allowed i s := fun _ => .inl hseq
  have haddReg := fun x y => completes_addReg (hallowed (.addReg x y))
  have hsubReg := fun x y => completes_subReg (hallowed (.subReg x y)) rfl
  have hsubn := fun x y => completes_subn (hallowed (.subn x y)) rfl
  exact ⟨completes_mono (haddReg VF q) fun t h => by rw [h.result, addResult_eq_add],
    completes_mono (haddReg q VF) fun t h => ⟨h.flag hq, by rw [h.result, addResult_eq_add]⟩,
    completes_mono (haddReg VF VF) fun t h => by rw [h.result, addResult_eq_add],
    completes_mono (hsubReg VF q) fun t h => by
      rw [h.result, afterFlag_VF, afterFlag_of_ne hq, subResult, greaterFlag],
    completes_mono (hsubReg q VF) fun t h =>
      ⟨h.flag hq, by rw [h.result, h.flag hq, afterFlag_VF, afterFlag_of_ne hq, subResult, greaterFlag]⟩,
    completes_mono (hsubReg VF VF) fun t h => by rw [h.result, subResult, BitVec.sub_self],
    fun y => completes_mono (completes_shr (hallowed (.shr VF y))) fun t h => by
      rw [h.result, afterFlag_VF, shrResult_shrFlag],
    completes_mono (hsubn VF q) fun t h => by
      rw [h.result, afterFlag_VF, afterFlag_of_ne hq, subResult, greaterFlag],
    completes_mono (hsubn q VF) fun t h =>
      ⟨h.flag hq, by rw [h.result, h.flag hq, afterFlag_VF, afterFlag_of_ne hq, subResult, greaterFlag]⟩,
    completes_mono (hsubn VF VF) fun t h => by rw [h.result, subResult, BitVec.sub_self],
    fun y => completes_mono (completes_shl (hallowed (.shl VF y))) fun t h => by
      rw [h.result, afterFlag_VF, shlResult_shlFlag],
    completes_reg (exec_eq (.ldReg VF q) s), completes_reg (exec_eq (.ldReg q VF) s),
    completes_reg (exec_eq (.orReg VF q) s), completes_reg (exec_eq (.orReg q VF) s),
    completes_reg (exec_eq (.andReg VF q) s), completes_reg (exec_eq (.andReg q VF) s),
    completes_reg (exec_eq (.xorReg VF q) s), completes_reg (exec_eq (.xorReg q VF) s)⟩

end Sys2Proof.Proofs

/-! SUPPORT. Families 9 to C, E and the index sum of family F (spec/44_family9toC_skip_index_jump_random.md,
spec/46_familyE_keys.md, spec/47_familyF_misc.md R254, R255). -/

namespace Sys2Proof.Proofs

open Sys2Proof.Machine Sys2Proof.Safety

/-- Settles O25: LD I and JP V0 raise no fault; neither the address nor the indexed target wraps. -/
theorem indexLoadAndIndexedJump : Obligations.IndexLoadAndIndexedJump :=
  ⟨decodesAs_ldI, decodesAs_jpV0, fun nnn s =>
    ⟨completes_of_no_fault_due rfl ⟨toNat_addressOf nnn, rfl, frame_resultOf (.ldI nnn) s⟩,
      completes_of_no_fault_due rfl ⟨toNat_indexedTarget nnn s, frame_resultOf (.jpV0 nnn) s⟩⟩⟩

/-- Settles O26: RND raises no fault and writes the masked free byte of this draw. -/
theorem randomByteMasked : Obligations.RandomByteMasked :=
  ⟨decodesAs_rnd, fun x kk s =>
    completes_of_no_fault_due rfl ⟨State.reg_setReg_same _ x _, rfl, rfl, frame_resultOf (.rnd x kk) s⟩⟩

/-! ### The key skips -/

theorem keyFault_of_lt {x : Reg} {s : State} (h : (s.reg x).toNat < 16) : keyFault x s = none :=
  if_neg (Nat.not_lt.mpr (Nat.le_of_lt_succ h))

/-- Settles O29: with a key's number in the register both answer a skip on the key; else the fault is due. -/
theorem keySkips : Obligations.KeySkips := by
  refine ⟨decodesAs_skp, decodesAs_sknp, fun x s => ⟨fun hx => ⟨?_, ?_⟩, fun hx => ⟨?_, ?_⟩⟩⟩
  · exact completes_of_exec_skipIf (exec_of_no_fault_due (i := .skp x) (keyFault_of_lt hx)) (by rw [getD_keys s hx])
  · exact completes_of_exec_skipIf (exec_of_no_fault_due (i := .sknp x) (keyFault_of_lt hx))
      (by rw [getD_keys s hx, Bool.not_eq_true'])
  · exact traps_of_fault_due (i := .skp x) (if_pos hx)
  · exact traps_of_fault_due (i := .sknp x) (if_pos hx)

/-! ### The index sum -/

theorem toNat_ofNat_word {n : Nat} (h : n ≤ 0xFFFF) : (BitVec.ofNat 16 n).toNat = n :=
  (BitVec.toNat_ofNat n 16).trans (Nat.mod_eq_of_lt (Nat.lt_succ_of_le h))

theorem indexFlag_ofNat {n : Nat} (h : n ≤ 0xFFFF) :
    indexFlag (BitVec.ofNat 16 n) = if n > 1000 then 1#8 else 0#8 := by
  rw [indexFlag, toNat_ofNat_word h, indexThreshold]

/-- Settles O31: the sum fits `I` exactly when the fault is not due; the flag is of the new `I`. -/
theorem addToIndexFlagsAboveThousand : Obligations.AddToIndexFlagsAboveThousand := by
  refine ⟨decodesAs_addI, fun x s => ⟨fun hsum => ?_, fun hsum => traps_of_fault_due (if_pos hsum)⟩⟩
  refine completes_of_no_fault_due (if_neg (Nat.not_lt.mpr hsum)) ⟨toNat_ofNat_word hsum, ?_, rfl,
    frame_resultOf (.addI x) s⟩
  rw [resultOf, State.reg_setReg_same, indexFlag_ofNat hsum]

end Sys2Proof.Proofs

/-! SUPPORT. The memory accesses (spec/20_memory.md R62 to R64, R80; spec/47_familyF_misc.md R260 to R266). -/

namespace Sys2Proof.Proofs

open Sys2Proof.Machine Sys2Proof.Safety

/-! ### One byte -/

theorem memRead_of_le {a : Nat} (h : a ≤ 0xFFF) (s : State) : memRead a s = .ok (s.byteAt a) := by
  rw [memRead, checkRange_ok a 1 (by omega)]
  rfl

theorem memRead_of_gt {a : Nat} (h : 0xFFF < a) (s : State) : memRead a s = .error ⟨.dataOutOfRange, some a⟩ := by
  rw [memRead, checkRange_error a 1 (by omega) (by omega), max_eq_left (Nat.succ_le_of_lt h)]
  rfl

theorem memWrite_of_le {a : Nat} (h : a ≤ 0xFFF) (b : Byte) (s : State) : memWrite a b s = .ok (s.setByte a b) := by
  rw [memWrite, checkRange_ok a 1 (by omega)]
  rfl

theorem memWrite_of_gt {a : Nat} (h : 0xFFF < a) (b : Byte) (s : State) :
    memWrite a b s = .error ⟨.dataOutOfRange, some a⟩ := by
  rw [memWrite, checkRange_error a 1 (by omega) (by omega), max_eq_left (Nat.succ_le_of_lt h)]
  rfl

/-- A read depends on the byte at its address alone. -/
theorem memRead_congr {a : Nat} {s t : State} (h : t.byteAt a = s.byteAt a) : memRead a t = memRead a s := by
  rw [memRead, memRead, h]

/-- Settles O38: inside memory a read gives the last write and a write touches one byte; beyond, both check the
range first. -/
theorem memoryPrimitives : Obligations.MemoryPrimitives := by
  refine fun s a b => ⟨fun ha => ⟨memRead_of_le ha s, s.setByte a b, memWrite_of_le ha b s, ?_, ?_,
    State.rest_setByte s a b⟩, fun ha => ⟨memRead_of_gt ha s, memWrite_of_gt ha b s⟩⟩
  · rw [memRead_of_le ha, State.byteAt_setByte, if_pos ⟨rfl, Nat.lt_succ_of_le ha⟩]
  · intro k hk
    exact memRead_congr ((State.byteAt_setByte s a k b).trans (if_neg fun h => hk h.1.symm))

/-! ### Blocks -/

/-- The range check of R64 for a block whose last address is `s.base + n`. -/
theorem rangeFault_of_le {s : State} {n : Nat} (h : s.base + n ≤ 0xFFF) : rangeFault s (n + 1) = none :=
  rangeFault_none (.inr (Nat.succ_le_succ h))

theorem rangeFault_of_gt {s : State} {n : Nat} (h : 0xFFF < s.base + n) :
    rangeFault s (n + 1) = some ⟨.dataOutOfRange, some (max s.base 0x1000)⟩ :=
  rangeFault_some (Nat.succ_ne_zero n) (Nat.succ_lt_succ h)

/-- Byte `k` of a block written inside memory. -/
theorem byteAt_setBytes_add {s : State} {a k : Nat} {bytes : List Byte} (hfits : a + bytes.length ≤ 0x1000)
    (hk : k < bytes.length) : (s.setBytes a bytes).byteAt (a + k) = bytes.getD k 0#8 := by
  rw [State.byteAt_setBytes s a (a + k) bytes hfits, if_pos ⟨Nat.le_add_right a k, Nat.add_lt_add_left hk a⟩,
    Nat.add_sub_cancel_left]

/-- The digits of a byte, as numbers (R260). -/
theorem toNat_getD_decimalDigits (b : Byte) :
    ((decimalDigits b).getD 0 0#8).toNat = b.toNat / 100 ∧
      ((decimalDigits b).getD 1 0#8).toNat = b.toNat / 10 % 10 ∧
      ((decimalDigits b).getD 2 0#8).toNat = b.toNat % 10 := by
  have := b.isLt
  have hdigit : ∀ n, n < 256 → (BitVec.ofNat 8 n).toNat = n := fun n hn =>
    (BitVec.toNat_ofNat n 8).trans (Nat.mod_eq_of_lt hn)
  exact ⟨hdigit _ (by omega), hdigit _ (by omega), hdigit _ (by omega)⟩

/-- Settles O34: the three digits are one block write, checked first. -/
theorem decimalDigitsStored : Obligations.DecimalDigitsStored := by
  refine ⟨decodesAs_storeBcd, fun x s =>
    ⟨fun hfits => ?_, fun hover => traps_of_fault_due (rangeFault_of_gt hover)⟩⟩
  obtain ⟨hhundreds, htens, hones⟩ := toNat_getD_decimalDigits (s.reg x)
  have hbyte : ∀ k, k < 3 →
      (resultOf (.storeBcd x) s).byteAt (s.base + k) = (decimalDigits (s.reg x)).getD k 0#8 := fun k hk =>
    byteAt_setBytes_add (bytes := decimalDigits (s.reg x)) (Nat.succ_le_succ hfits) hk
  refine completes_of_no_fault_due (rangeFault_of_le hfits)
    ⟨?_, ?_, ?_, State.setBytes_pc _ _ _, frame_resultOf (.storeBcd x) s⟩
  · exact (congrArg BitVec.toNat (hbyte 0 (by decide))).trans hhundreds
  · exact (congrArg BitVec.toNat (hbyte 1 (by decide))).trans htens
  · exact (congrArg BitVec.toNat (hbyte 2 (by decide))).trans hones

/-- Settles O35: V0 to Vx are one block write, checked first. -/
theorem registersStored : Obligations.RegistersStored := by
  refine ⟨decodesAs_storeRegs, fun x s =>
    ⟨fun hfits => ?_, fun hover => traps_of_fault_due (rangeFault_of_gt hover)⟩⟩
  have hlen := State.length_regsUpTo s x
  refine completes_of_no_fault_due (rangeFault_of_le hfits)
    ⟨fun r hr => ?_, State.setBytes_pc _ _ _, frame_resultOf (.storeRegs x) s⟩
  rw [resultOf, byteAt_setBytes_add (by omega) (by omega), State.getD_regsUpTo s x r.toNat hr, BitVec.ofNat_toNat,
    BitVec.setWidth_eq]

/-- Settles O36: V0 to Vx are one block read, checked first. -/
theorem registersLoaded : Obligations.RegistersLoaded := by
  refine ⟨decodesAs_loadRegs, fun x s =>
    ⟨fun hfits => ?_, fun hover => traps_of_fault_due (rangeFault_of_gt hover)⟩⟩
  refine completes_of_no_fault_due (rangeFault_of_le hfits)
    ⟨fun r hr => ?_, State.setRegs_pc _ _ _, frame_resultOf (.loadRegs x) s⟩
  rw [resultOf, reg_setRegs_bytesAt, if_pos hr]

/-- Settles O37: the two bytes at `PC` are two of the registers that the Fx55 stored. -/
theorem storedCodeIsFetched : Obligations.StoredCodeIsFetched := by
  intro x s t k hexec hfits hk hpc
  obtain ⟨_, hstores⟩ := registersStored
  obtain ⟨hbytes, _⟩ := post_of_completes ((hstores x s).1 hfits) hexec
  have hstored : ∀ j, j ≤ x.toNat → t.byteAt (s.base + j) = s.reg (BitVec.ofNat 4 j) := by
    intro j hj
    have hjNat : (BitVec.ofNat 4 j).toNat = j :=
      (BitVec.toNat_ofNat j 4).trans (Nat.mod_eq_of_lt (hj.trans_lt x.isLt))
    have hbyte := hbytes (BitVec.ofNat 4 j) (hjNat.trans_le hj)
    rwa [hjNat] at hbyte
  rw [State.fetchedWord, wordOfBytes, hpc, Nat.add_assoc, hstored k (by omega), hstored (k + 1) hk]

end Sys2Proof.Proofs

/-! SUPPORT. The sprite draw (spec/45_familyD_draw.md R220 to R225). -/

namespace Sys2Proof.Proofs

open Sys2Proof.Machine Sys2Proof.Safety

/-! ### The sprite unit and the pixels it covers -/

/-- The sprite unit's placing of bits is R220's, row by row and bit by bit: past the last row there is no bit. -/
theorem spriteLands_iff_covers (x y : Reg) (n : Rows) (s : State) (c r : Nat) :
    spriteLands (s.bytesAt s.base n.toNat) (originColumn (s.reg x)) (originRow (s.reg y)) c r = true ↔
      covers s x y n c r := by
  simp only [spriteLands, Bool.and_eq_true, decide_eq_true_eq]
  simp only [covers, originColumn, originRow]
  constructor
  · rintro ⟨⟨⟨⟨⟨hc, hr⟩, hrow⟩, hcolumn⟩, hwidth⟩, hbit⟩
    have hk : r - (s.reg y).toNat < n.toNat := by
      by_contra hover
      rw [List.getD_eq_default _ _ (by rw [State.length_bytesAt]; omega)] at hbit
      simp at hbit
    rw [State.getD_bytesAt _ _ _ _ hk] at hbit
    exact ⟨hc, hr, r - (s.reg y).toNat, c - (s.reg x).toNat % 64, hk, hwidth, by omega, by omega, hbit⟩
  · rintro ⟨hc, hr, k, j, hk, hj, rfl, rfl, hbit⟩
    refine ⟨⟨⟨⟨⟨hc, hr⟩, by omega⟩, by omega⟩, by omega⟩, ?_⟩
    rw [Nat.add_sub_cancel_left, Nat.add_sub_cancel_left, State.getD_bytesAt _ _ _ _ hk]
    exact hbit

theorem pixel_drawnBy (x y : Reg) (n : Rows) (s : State) (c r : Nat) :
    Grid.pixel (drawnBy x y n s).1 c r = true ↔ Xor (Grid.pixel s.disp c r = true) (covers s x y n c r) := by
  rw [drawnBy, pixel_drawRows, ← spriteLands_iff_covers]
  cases Grid.pixel s.disp c r <;> simp [Xor]

/-- A set sprite bit lands on a set pixel (R222). -/
def Collides (x y : Reg) (n : Rows) (s : State) : Prop :=
  ∃ c r, covers s x y n c r ∧ Grid.pixel s.disp c r = true

theorem hit_drawnBy (x y : Reg) (n : Rows) (s : State) : (drawnBy x y n s).2 = true ↔ Collides x y n s := by
  simp only [drawnBy, hit_drawRows, Bool.false_eq_true, false_or, spriteLands_iff_covers, Collides]

theorem collisionFlag_eq_one {hit : Bool} : collisionFlag hit = 1#8 ↔ hit = true := by
  cases hit <;> decide

theorem collisionFlag_of_not {hit : Bool} (h : ¬ hit = true) : collisionFlag hit = 0#8 := if_neg h

/-! ### The instruction -/

/-- What a draw that is in range leaves: the display, the flag and the frame. -/
structure Drawn (x y : Reg) (n : Rows) (s t : State) : Prop where
  pixel : ∀ c r, Grid.pixel t.disp c r = true ↔ Xor (Grid.pixel s.disp c r = true) (covers s x y n c r)
  flag : t.reg VF = collisionFlag (drawnBy x y n s).2
  frame : Frame { regs := [VF], disp := true, drawFlag := true } s t

theorem drawn_resultOf (x y : Reg) (n : Rows) (s : State) : Drawn x y n s (resultOf (.drw x y n) s) where
  pixel := pixel_drawnBy x y n s
  flag := State.reg_setReg_same s.advance VF _
  frame := frame_resultOf (.drw x y n) s

/-- The flag is 1 exactly on a collision (R222). -/
theorem flag_eq_one_of_drawn {x y : Reg} {n : Rows} {s t : State} (h : Drawn x y n s t) :
    t.reg VF = 1#8 ↔ Collides x y n s := by
  rw [h.flag, collisionFlag_eq_one, hit_drawnBy]

/-- Settles O27: in range (or with no rows) the draw leaves what the sprite unit says; else the fault is due. -/
theorem drawXorsSpriteAndDetectsCollision : Obligations.DrawXorsSpriteAndDetectsCollision := by
  refine ⟨decodesAs_drw, fun x y n s => ⟨fun hrange => ?_, fun hn hover => ?_⟩⟩
  · have hdrawn := drawn_resultOf x y n s
    have hdue : rangeFault s n.toNat = none := rangeFault_none (hrange.imp_left (congrArg BitVec.toNat))
    refine completes_of_no_fault_due hdue
      ⟨hdrawn.pixel, (flag_eq_one_of_drawn hdrawn).2, fun hmiss => ?_, rfl, rfl, hdrawn.frame⟩
    rw [hdrawn.flag, collisionFlag_of_not (mt (hit_drawnBy x y n s).1 hmiss)]
  · exact traps_of_fault_due (rangeFault_some (fun h => hn (BitVec.eq_of_toNat_eq h)) hover)

/-! ### Drawing twice -/

/-- A draw with the origin in other registers than VF leaves everything that a draw reads but the display. -/
theorem covers_of_drawn {x y : Reg} {n : Rows} {s t : State} (hx : x ≠ VF) (hy : y ≠ VF) (h : Drawn x y n s t)
    (c r : Nat) : covers t x y n c r ↔ covers s x y n c r := by
  have hbytes : ∀ a, t.byteAt a = s.byteAt a := fun a =>
    h.frame.bytes a fun hblock => Nat.not_lt_of_le hblock.1 hblock.2
  simp only [covers, h.frame.regs x (by simpa using hx), h.frame.regs y (by simpa using hy), h.frame.index rfl,
    hbytes]

/-- Settles O28: the second draw XORs the same pixels again; on a clear display the first draw sets exactly the
pixels it covers. -/
theorem drawTwiceRestoresDisplay : Obligations.DrawTwiceRestoresDisplay := by
  intro x y n s t u _ htfault hx hy hfirst hsecond
  obtain ⟨hdue, rfl⟩ := result_of_next_no_fault hfirst htfault
  have hfirst := drawn_resultOf x y n s
  generalize resultOf (.drw x y n) s = t at *
  have hcovers := covers_of_drawn hx hy hfirst
  have hdue' : executeFault (.drw x y n) t = none := by
    rw [← hdue, executeFault, executeFault, rangeFault, rangeFault, hfirst.frame.index rfl]
  rw [exec_of_no_fault_due hdue'] at hsecond
  cases hsecond
  have hsecond := drawn_resultOf x y n t
  generalize resultOf (.drw x y n) t = u at *
  refine ⟨fun c r => ?_, fun hclear => ?_⟩
  · rw [Bool.eq_iff_iff, hsecond.pixel, hfirst.pixel, hcovers]
    by_cases hcovered : covers s x y n c r <;> simp [Xor, hcovered]
  · rw [flag_eq_one_of_drawn hsecond]
    have hset : ∀ c r, Grid.pixel t.disp c r = true ↔ covers s x y n c r := fun c r => by
      simp [hfirst.pixel, hclear]
    simp only [Collides, hcovers, hset, and_self]

end Sys2Proof.Proofs

/-! SUPPORT. The STEP (spec/30_encoding.md R90, R91, R104) and its faults (spec/60_exceptions.md R301 to R308,
R334). -/

namespace Sys2Proof.Proofs

open Sys2Proof.Machine Sys2Proof.Safety

/-! ### What a STEP answers, one rule for each of its four cases -/

theorem step_of_halted {s : State} (h : s.fault ≠ none) : step s = .refused .halted :=
  if_pos (Option.isSome_iff_ne_none.2 h)

theorem step_of_fetchDecode_error {s : State} (h : s.fault = none) {opcode : Option Word} {trap : Trap}
    (hd : fetchDecode s = .error (opcode, trap)) : step s = .next (takeFault opcode trap s) := by
  simp [step, State.halted, h, hd]

theorem fetchDecode_of_gt {s : State} (hpc : 0xFFE < s.pc.toNat) :
    fetchDecode s = .error (none, ⟨.fetchOutOfRange, some (max s.pc.toNat 0x1000)⟩) := by
  obtain ⟨hle, _⟩ | ⟨_, hfetch⟩ := fetch_cases s
  · omega
  · rw [fetchDecode, hfetch]

theorem fetch_of_le {s : State} (hpc : s.pc.toNat ≤ 0xFFE) : fetch s = .ok s.fetchedWord := by
  obtain ⟨_, hfetch⟩ | ⟨hgt, _⟩ := fetch_cases s
  · exact hfetch
  · omega

/-- FETCH finds nothing (R91). -/
theorem step_of_no_fetch {s : State} (h : s.fault = none) (hpc : 0xFFE < s.pc.toNat) :
    step s = .next (takeFault none ⟨.fetchOutOfRange, some (max s.pc.toNat 0x1000)⟩ s) :=
  step_of_fetchDecode_error h (fetchDecode_of_gt hpc)

/-- DECODE finds no instruction (R104). -/
theorem step_of_illegal {s : State} (h : s.fault = none) (hpc : s.pc.toNat ≤ 0xFFE) {e : DecodeFailure}
    (hd : decode s.fetchedWord = .error e) :
    step s = .next (takeFault (some s.fetchedWord) ⟨.decodeError, none⟩ s) :=
  step_of_fetchDecode_error h (by simp only [fetchDecode, fetch_of_le hpc, hd])

/-- An instruction was fetched (R90). -/
theorem step_of_decode {s : State} (h : s.fault = none) (hpc : s.pc.toNat ≤ 0xFFE) {i : Instr}
    (hd : decode s.fetchedWord = .ok i) : step s = exec i s := by
  simp [step, State.halted, h, fetchDecode, fetch_of_le hpc, hd]

/-- Every STEP of a core that is not halted is one of the last three. -/
theorem step_of_no_fault_cases {s : State} (h : s.fault = none) :
    (0xFFE < s.pc.toNat ∧
      step s = .next (takeFault none ⟨.fetchOutOfRange, some (max s.pc.toNat 0x1000)⟩ s)) ∨
    (∃ e, s.pc.toNat ≤ 0xFFE ∧ decode s.fetchedWord = .error e ∧
      step s = .next (takeFault (some s.fetchedWord) ⟨.decodeError, none⟩ s)) ∨
    (∃ i, s.pc.toNat ≤ 0xFFE ∧ decode s.fetchedWord = .ok i ∧ step s = exec i s) := by
  by_cases hpc : 0xFFE < s.pc.toNat
  · exact .inl ⟨hpc, step_of_no_fetch h hpc⟩
  · have hpc := Nat.le_of_not_lt hpc
    cases hd : decode s.fetchedWord with
    | error e => exact .inr (.inl ⟨e, hpc, rfl, step_of_illegal h hpc hd⟩)
    | ok i => exact .inr (.inr ⟨i, hpc, rfl, step_of_decode h hpc hd⟩)

/-- The first address beyond 0xFFF of a word at `PC` (R91). -/
theorem max_pc_eq_ite {p : Nat} (hp : 0xFFE < p) : max p 0x1000 = if p > 0xFFF then p else p + 1 := by
  split <;> omega

/-- Settles O1: the four rules. -/
theorem stepRunsFetchedInstruction : Obligations.StepRunsFetchedInstruction := by
  refine fun s => ⟨step_of_halted, fun hs hpc => ?_, ?_⟩
  · rw [step_of_no_fetch hs hpc, max_pc_eq_ite hpc]
    rfl
  · rintro hs hpc _ rfl
    refine ⟨fun hillegal => ?_, fun i hi => step_of_decode hs hpc hi⟩
    cases hd : decode s.fetchedWord with
    | ok i => exact absurd hd (hillegal i)
    | error e => exact step_of_illegal hs hpc hd

theorem decode_of_decodeTableWord {w : Nat} {i : Instr} (h : decodeTableWord 16 w = some i) :
    decode (BitVec.ofNat 16 (w % 2 ^ 16)) = .ok i := by
  rw [decodeTableWord, bytesOfWord, decodeBytes, wordOfBytes_bytesOfWord] at h
  split at h
  · next hd =>
    cases h
    exact hd
  · cases h

/-- Settles O2: the placed word is the fetched word, and placing it changes neither `PC` nor the fault status. -/
theorem placedWordRunsNext : Obligations.PlacedWordRunsNext := by
  intro s w i hs hpc hw
  have hfault : (s.withFetchWord 16 w).fault = none := (State.setBytes_fault ..).trans hs
  have hplaced : (s.withFetchWord 16 w).pc = s.pc := State.setBytes_pc ..
  have hword : (s.withFetchWord 16 w).fetchedWord = BitVec.ofNat 16 (w % 2 ^ 16) := fetchedWord_placeWord _ s hpc
  exact step_of_decode hfault (by rwa [hplaced]) (by rw [hword, decode_of_decodeTableWord hw])

/-! ### The table of faults (R301, R303) -/

theorem dueFault_of_no_fetch {s : State} (hpc : 0xFFE < s.pc.toNat) :
    dueFault s = some ⟨.fetchOutOfRange, s.pc, none, some (max s.pc.toNat 0x1000)⟩ := if_pos hpc

theorem dueFault_of_illegal {s : State} (hpc : s.pc.toNat ≤ 0xFFE) {e : DecodeFailure}
    (hd : decode s.fetchedWord = .error e) :
    dueFault s = some ⟨.decodeError, s.pc, some s.fetchedWord, none⟩ := by
  rw [dueFault, if_neg (Nat.not_lt.mpr hpc), hd]

theorem dueFault_of_decode {s : State} (hpc : s.pc.toNat ≤ 0xFFE) {i : Instr} (hd : decode s.fetchedWord = .ok i) :
    dueFault s = (executeFault i s).map fun trap => ⟨trap.cause, s.pc, some s.fetchedWord, trap.info⟩ := by
  rw [dueFault, if_neg (Nat.not_lt.mpr hpc), hd]

/-- A fault taken from `s` is precise: nothing but the record changes, the record is of the fetched word and
fits its cause, and the core is halted. -/
theorem takeFault_precise {s : State} {opcode : Option Word} {trap : Trap}
    (hopcode : opcode = if s.pc.toNat ≤ 0xFFE then some s.fetchedWord else none)
    (hinfo : infoFits trap.cause trap.info = true) :
    ∀ record, (takeFault opcode trap s).fault = some record →
      takeFault opcode trap s = { s with fault := some record } ∧ record.pc = s.pc ∧
      record.opcode = (if s.pc.toNat ≤ 0xFFE then some s.fetchedWord else none) ∧
      infoFits record.cause record.info = true ∧ step (takeFault opcode trap s) = .refused .halted := by
  rintro _ ⟨⟩
  exact ⟨rfl, rfl, hopcode, hinfo, step_of_halted (Option.some_ne_none _)⟩

/-- Settles O39: the STEP and the table of R301 go through the same cases, FETCH, DECODE and execute; the recorded
opcode is the fetched word, since that is the word of the instruction. -/
theorem faultsArePrecise : Obligations.FaultsArePrecise := by
  intro s t hs hstep
  obtain ⟨hpc, h⟩ | ⟨e, hpc, hd, h⟩ | ⟨i, hpc, hd, h⟩ := step_of_no_fault_cases hs
  · rw [h] at hstep
    cases hstep
    exact ⟨(dueFault_of_no_fetch hpc).symm, takeFault_precise (if_neg (Nat.not_le.mpr hpc)).symm
      (decide_eq_true (lt_max_of_lt_right (by decide)))⟩
  · rw [h] at hstep
    cases hstep
    exact ⟨(dueFault_of_illegal hpc hd).symm, takeFault_precise (if_pos hpc).symm rfl⟩
  · rw [h, exec_eq, encodeOfDecode _ i hd] at hstep
    rw [dueFault_of_decode hpc hd]
    cases hdue : executeFault i s <;> rw [hdue] at hstep <;> cases hstep
    · have hfault := (fault_resultOf i s).trans hs
      exact ⟨hfault, fun _ hrecord => nomatch hfault.symm.trans hrecord⟩
    · exact ⟨rfl, takeFault_precise (if_pos hpc).symm (executeFault_sound hdue).2⟩

/-- Settles O40: an instruction answers its result, which keeps the fault status, or one of its own faults. -/
theorem faultCausesPerInstruction : Obligations.FaultCausesPerInstruction := by
  refine ⟨rfl, fun i s => ?_⟩
  obtain hexec | ⟨trap, hexec, hcause, hinfo⟩ := exec_cases i s
  · exact ⟨resultOf i s, hexec, .inl (fault_resultOf i s)⟩
  · exact ⟨takeFault (some (encode i)) trap s, hexec, .inr ⟨_, rfl, hcause, hinfo⟩⟩

/-! ### The halt (R306, R334, R335) -/

/-- A core that is not halted answers a next state. -/
theorem step_next_of_no_fault {s : State} (h : s.fault = none) : ∃ t, step s = .next t := by
  obtain ⟨_, hstep⟩ | ⟨_, _, _, hstep⟩ | ⟨i, _, _, hstep⟩ := step_of_no_fault_cases h
  · exact ⟨_, hstep⟩
  · exact ⟨_, hstep⟩
  · exact ⟨_, hstep.trans (exec_eq i s)⟩

theorem hostStep_of_halted {s : State} (h : s.fault ≠ none) : hostStep s = (s, .refused) := by
  rw [hostStep, step_of_halted h]

theorem hostStep_of_next {s t : State} (h : step s = .next t) (ht : t.fault = none) : hostStep s = (t, .nothing) := by
  simp only [hostStep, h, ht]

theorem hostStep_of_next_fault {s t : State} (h : step s = .next t) {record : FaultRecord}
    (ht : t.fault = some record) : hostStep s = (t, .faulted record) := by
  simp only [hostStep, h, ht]

/-- Settles O58: the three replies. -/
theorem stepRequestReplies : Obligations.StepRequestReplies := by
  refine fun s => ⟨hostStep_of_halted, fun hs => ?_⟩
  obtain ⟨t, hstep⟩ := step_next_of_no_fault hs
  exact ⟨t, hstep, hostStep_of_next hstep, fun _ => hostStep_of_next_fault hstep⟩

/-- What a halted core keeps. -/
structure HaltKept (s t : State) : Prop where
  fault : t.fault = s.fault
  v : t.v = s.v
  pc : t.pc = s.pc
  index : t.index = s.index
  stack : t.stack = s.stack
  disp : t.disp = s.disp

theorem haltKept_of_devices (s : State) (keys : Vector Bool 16) (dt st : Byte) (drawFlag : Bool) :
    HaltKept s { s with keys := keys, dt := dt, st := st, drawFlag := drawFlag } :=
  ⟨rfl, rfl, rfl, rfl, rfl, rfl⟩

theorem haltKept_hostOp {op : HostOp} {s : State} (hs : s.fault ≠ none) (hop : op ≠ .reset) :
    HaltKept s (hostOp op s).1 := by
  cases op with
  | reset => exact absurd rfl hop
  | load bytes =>
    by_cases hfits : bytes.length ≤ programMax
    · rw [hostOp_load_of_le hfits]
      exact ⟨State.setBytes_fault .., State.setBytes_v .., State.setBytes_pc .., State.setBytes_index ..,
        State.setBytes_stack .., State.setBytes_disp ..⟩
    · rw [hostOp_load_of_gt (Nat.lt_of_not_le hfits)]
      exact haltKept_of_devices s s.keys s.dt s.st s.drawFlag
  | setKeys k => exact haltKept_of_devices s (keysOf k) s.dt s.st s.drawFlag
  | step =>
    rw [hostOp, hostStep_of_halted hs]
    exact haltKept_of_devices s s.keys s.dt s.st s.drawFlag
  | tick => exact haltKept_of_devices s s.keys (countDown s.dt) (countDown s.st) s.drawFlag
  | clearDraw => exact haltKept_of_devices s s.keys s.dt s.st false
  | readDisplay | readFlags => exact haltKept_of_devices s s.keys s.dt s.st s.drawFlag

theorem haltKept_hostRun {ops : List HostOp} {s : State} (hs : s.fault ≠ none) (hops : HostOp.reset ∉ ops) :
    HaltKept s (hostRun ops s) := by
  induction ops generalizing s with
  | nil => exact haltKept_of_devices s s.keys s.dt s.st s.drawFlag
  | cons op ops ih =>
    rw [List.mem_cons, not_or] at hops
    have hfirst := haltKept_hostOp hs (Ne.symm hops.1)
    have hrest := ih (hfirst.fault ▸ hs) hops.2
    exact ⟨hrest.fault.trans hfirst.fault, hrest.v.trans hfirst.v, hrest.pc.trans hfirst.pc,
      hrest.index.trans hfirst.index, hrest.stack.trans hfirst.stack, hrest.disp.trans hfirst.disp⟩

/-- Settles O41: by induction on the operations, each of which keeps what a halted core keeps. -/
theorem haltedUntilReset : Obligations.HaltedUntilReset := by
  intro ops s hs hops
  obtain ⟨hfault, hv, hpc, hindex, hstack, hdisp⟩ := haltKept_hostRun hs hops
  exact ⟨hfault, hv, hpc, hindex, hstack, hdisp, step_of_halted (hfault ▸ hs), rfl⟩

end Sys2Proof.Proofs

/-! SUPPORT. What does not influence an instruction or a STEP: a register that spec/10_state.md R22 does not list,
and `ST` and `drawFlag` (R36, R37). -/

namespace Sys2Proof.Proofs

open Sys2Proof.Machine Sys2Proof.Safety

/-! ### States that differ in one register -/

theorem agreeButReg_setReg (s : State) (r : Reg) (b : Byte) : AgreeButReg r s (s.setReg r b) where
  regs q hq := State.reg_setReg_other s r q b hq
  rest := rfl

/-- The same write to both. -/
theorem agreeButReg_then_setReg {r : Reg} {s u : State} (h : AgreeButReg r s u) (x : Reg) (b : Byte) :
    AgreeButReg r (s.setReg x b) (u.setReg x b) where
  regs q hq := by rw [State.reg_setReg, State.reg_setReg, h.regs q hq]
  rest := by
    have hrest := congrArg (State.setReg · x b) h.rest
    exact hrest

theorem agreeButReg_then_setRegs {r : Reg} {s u : State} (h : AgreeButReg r s u) (k : Nat) (bytes : List Byte) :
    AgreeButReg r (s.setRegs k bytes) (u.setRegs k bytes) := by
  induction bytes generalizing s u k with
  | nil => exact h
  | cons b bytes ih => exact ih (agreeButReg_then_setReg h (BitVec.ofNat 4 k) b) (k + 1)

theorem agreeButReg_then_flagThenResult {r : Reg} {s u : State} (h : AgreeButReg r s u) (x : Reg) (flag : Byte)
    {result : State → Byte} (hresult : result (u.setReg VF flag) = result (s.setReg VF flag)) :
    AgreeButReg r (flagThenResult x flag result s) (flagThenResult x flag result u) := by
  rw [flagThenResult, flagThenResult, hresult]
  exact agreeButReg_then_setReg (agreeButReg_then_setReg h VF flag) x _

theorem setByte_setReg (s : State) (r : Reg) (b : Byte) (a : Nat) (c : Byte) :
    (s.setReg r b).setByte a c = (s.setByte a c).setReg r b := by
  unfold State.setByte
  split <;> rfl

theorem setBytes_setReg (s : State) (r : Reg) (b : Byte) (a : Nat) (bytes : List Byte) :
    (s.setReg r b).setBytes a bytes = (s.setBytes a bytes).setReg r b := by
  induction bytes generalizing s a with
  | nil => rfl
  | cons c bytes ih => rw [State.setBytes, setByte_setReg, ih, State.setBytes]

theorem agreeButReg_setBytes (s : State) (r : Reg) (b : Byte) (a : Nat) (bytes : List Byte) :
    AgreeButReg r (s.setBytes a bytes) ((s.setReg r b).setBytes a bytes) := by
  rw [setBytes_setReg]
  exact agreeButReg_setReg _ r b

theorem agreeButReg_skipIf (s : State) (r : Reg) (b : Byte) (cond : Bool) :
    AgreeButReg r (skipIf cond s) (skipIf cond (s.setReg r b)) := by
  cases cond
  · exact agreeButReg_setReg s r b
  · exact agreeButReg_setReg s.advance r b

theorem regsUpTo_setReg {s : State} {r x : Reg} {b : Byte} (h : ¬ r.toNat ≤ x.toNat) :
    (s.setReg r b).regsUpTo x = s.regsUpTo x := by
  refine List.map_congr_left fun k hk => State.reg_setReg_other s r _ b ?_
  rintro rfl
  have hk := Nat.lt_succ_iff.1 (List.mem_range.1 hk)
  rw [BitVec.toNat_ofNat] at h
  exact h ((Nat.mod_le k _).trans hk)

theorem drawnBy_setReg {s : State} {r x y : Reg} {b : Byte} (hx : x ≠ r) (hy : y ≠ r) (n : Rows) :
    drawnBy x y n (s.setReg r b) = drawnBy x y n s := by
  rw [drawnBy, State.reg_setReg_other s r x b hx, State.reg_setReg_other s r y b hy]
  rfl

/-! ### A register that is not read -/

theorem ne_of_beq_false {r x : Reg} (h : (r == x) = false) : x ≠ r := Ne.symm (beq_eq_false_iff_ne.1 h)

theorem ne_of_or_beq_false {r x y : Reg} (h : (r == x || r == y) = false) : x ≠ r ∧ y ≠ r := by
  rw [Bool.or_eq_false_iff] at h
  exact ⟨ne_of_beq_false h.1, ne_of_beq_false h.2⟩

section
variable {i : Instr} {r : Reg} (hread : readsReg i r = false) (s : State) (b : Byte)
include hread

theorem executeFault_setReg : executeFault i (s.setReg r b) = executeFault i s := by
  cases i with
  | skp x | sknp x =>
    simp only [executeFault, keyFault, State.reg_setReg_other s r x b (ne_of_beq_false hread)]
  | addI x =>
    simp only [executeFault, State.reg_setReg_other s r x b (ne_of_beq_false hread), State.setReg_index]
  | _ => rfl

/-- The results differ in the register at most: what an instruction reads is the same, what it writes it writes to
both. -/
theorem agreeButReg_resultOf : AgreeButReg r (resultOf i s) (resultOf i (s.setReg r b)) := by
  have hkeep : ∀ x, x ≠ r → (s.setReg r b).reg x = s.reg x := fun x => State.reg_setReg_other s r x b
  have hadvance := agreeButReg_setReg s.advance r b
  have hflag : ∀ x flag, x ≠ r →
      ((s.setReg r b).advance.setReg VF flag).reg x = (s.advance.setReg VF flag).reg x :=
    fun x flag => (agreeButReg_then_setReg hadvance VF flag).regs x
  cases i with
  | cls | ret | jp | call | ldI => exact agreeButReg_setReg _ r b
  | seImm x | sneImm x | skp x | sknp x =>
    simp only [resultOf, hkeep x (ne_of_beq_false hread), State.setReg_keys]
    exact agreeButReg_skipIf s.advance r b _
  | seReg x y | sneReg x y =>
    obtain ⟨hx, hy⟩ := ne_of_or_beq_false hread
    simp only [resultOf, hkeep x hx, hkeep y hy]
    exact agreeButReg_skipIf s.advance r b _
  | ldImm x | readDT x => exact agreeButReg_then_setReg hadvance x _
  | rnd x => exact agreeButReg_then_setReg (agreeButReg_setReg { s.advance with draws := s.draws + 1 } r b) x _
  | addImm x =>
    simp only [resultOf, hkeep x (ne_of_beq_false hread)]
    exact agreeButReg_then_setReg hadvance x _
  | ldReg x y =>
    simp only [resultOf, hkeep y (ne_of_beq_false hread)]
    exact agreeButReg_then_setReg hadvance x _
  | orReg x y | andReg x y | xorReg x y =>
    obtain ⟨hx, hy⟩ := ne_of_or_beq_false hread
    simp only [resultOf, hkeep x hx, hkeep y hy]
    exact agreeButReg_then_setReg hadvance x _
  | addReg x y =>
    obtain ⟨hx, hy⟩ := ne_of_or_beq_false hread
    simp only [resultOf, hkeep x hx, hkeep y hy]
    exact agreeButReg_then_flagThenResult hadvance x _ rfl
  | subReg x y | subn x y =>
    obtain ⟨hx, hy⟩ := ne_of_or_beq_false hread
    simp only [resultOf, hkeep x hx, hkeep y hy]
    exact agreeButReg_then_flagThenResult hadvance x _ (congrArg₂ subResult (hflag _ _ ‹_›) (hflag _ _ ‹_›))
  | shr x =>
    have hx := ne_of_beq_false hread
    simp only [resultOf, hkeep x hx]
    exact agreeButReg_then_flagThenResult hadvance x _ (congrArg shrResult (hflag x _ hx))
  | shl x =>
    have hx := ne_of_beq_false hread
    simp only [resultOf, hkeep x hx]
    exact agreeButReg_then_flagThenResult hadvance x _ (congrArg shlResult (hflag x _ hx))
  | jpV0 =>
    simp only [resultOf, indexedTarget, hkeep 0x0#4 (ne_of_beq_false hread)]
    exact agreeButReg_setReg _ r b
  | drw x y n =>
    obtain ⟨hx, hy⟩ := ne_of_or_beq_false hread
    simp only [resultOf, drawnBy_setReg hx hy]
    exact agreeButReg_then_setReg (agreeButReg_setReg
      { s.advance with disp := (drawnBy x y n s).1, drawFlag := true } r b) VF _
  | setDT x | setST x | ldFont x =>
    simp only [resultOf, hkeep x (ne_of_beq_false hread)]
    exact agreeButReg_setReg _ r b
  | addI x =>
    simp only [resultOf, hkeep x (ne_of_beq_false hread)]
    exact agreeButReg_then_setReg (agreeButReg_setReg { s.advance with index := _ } r b) VF _
  | waitKey x =>
    simp only [resultOf, State.setReg_keys]
    split
    · exact agreeButReg_then_setReg hadvance x _
    · exact agreeButReg_setReg s r b
  | storeBcd x =>
    simp only [resultOf, hkeep x (ne_of_beq_false hread)]
    exact agreeButReg_setBytes s.advance r b s.base _
  | storeRegs x =>
    simp only [resultOf, regsUpTo_setReg (of_decide_eq_false hread)]
    exact agreeButReg_setBytes s.advance r b s.base _
  | loadRegs x => exact agreeButReg_then_setRegs hadvance 0 _

end

/-- Settles O49: the same fault is due, and either it is taken from both or both leave their results. -/
theorem unlistedRegisterIsNotRead : Obligations.UnlistedRegisterIsNotRead := by
  intro i s t r b hread hexec
  rw [exec_eq] at hexec
  rw [exec_eq, executeFault_setReg hread]
  cases hdue : executeFault i s <;> rw [hdue] at hexec <;> cases hexec
  · exact ⟨resultOf i (s.setReg r b), rfl, agreeButReg_resultOf hread s b⟩
  · exact ⟨_, rfl, agreeButReg_setReg _ r b⟩

/-! ### `ST` and `drawFlag` -/

/-- The state with other values in `ST` and `drawFlag`. -/
def withSound (s : State) (b : Byte) (d : Bool) : State := { s with st := b, drawFlag := d }

/-- The two states differ at most in `ST` and `drawFlag`. -/
def AgreeButSound (t u : State) : Prop := withSound u t.st t.drawFlag = t

theorem agreeButSound_withSound (t : State) (b : Byte) (d : Bool) : AgreeButSound t (withSound t b d) := rfl

theorem setByte_withSound (s : State) (b : Byte) (d : Bool) (a : Nat) (c : Byte) :
    (withSound s b d).setByte a c = withSound (s.setByte a c) b d := by
  simp only [State.setByte]
  split <;> rfl

theorem setBytes_withSound (s : State) (b : Byte) (d : Bool) (a : Nat) (bytes : List Byte) :
    (withSound s b d).setBytes a bytes = withSound (s.setBytes a bytes) b d := by
  induction bytes generalizing s a with
  | nil => rfl
  | cons c bytes ih => rw [State.setBytes, setByte_withSound, ih, State.setBytes]

theorem setRegs_withSound (s : State) (b : Byte) (d : Bool) (k : Nat) (bytes : List Byte) :
    (withSound s b d).setRegs k bytes = withSound (s.setRegs k bytes) b d := by
  induction bytes generalizing s k with
  | nil => rfl
  | cons c bytes ih => exact ih (s.setReg (BitVec.ofNat 4 k) c) (k + 1)

theorem executeFault_withSound (i : Instr) (s : State) (b : Byte) (d : Bool) :
    executeFault i (withSound s b d) = executeFault i s := by
  cases i <;> rfl

theorem skipIf_withSound (cond : Bool) (s : State) (b : Byte) (d : Bool) :
    skipIf cond (withSound s b d) = withSound (skipIf cond s) b d := by
  cases cond <;> rfl

/-- The results differ in `ST` and `drawFlag` at most. -/
theorem agreeButSound_resultOf (i : Instr) (s : State) (b : Byte) (d : Bool) :
    AgreeButSound (resultOf i s) (resultOf i (withSound s b d)) := by
  have hcommutes : resultOf i (withSound s b d) = withSound (resultOf i s) b d →
      AgreeButSound (resultOf i s) (resultOf i (withSound s b d)) := fun h =>
    h ▸ agreeButSound_withSound (resultOf i s) b d
  cases i with
  | seImm | sneImm | seReg | sneReg | skp | sknp => exact hcommutes (skipIf_withSound _ s.advance b d)
  | storeBcd | storeRegs => exact hcommutes (setBytes_withSound s.advance b d _ _)
  | loadRegs => exact hcommutes (setRegs_withSound s.advance b d 0 _)
  | waitKey x =>
    simp only [resultOf, show (withSound s b d).keys = s.keys from rfl]
    split <;> rfl
  | _ => rfl

/-- Settles O50: FETCH, DECODE and the faults due are the same, and the results differ in the two at most. -/
theorem soundTimerAndDrawFlagAreNotRead : Obligations.SoundTimerAndDrawFlagAreNotRead := by
  intro s t b d hstep
  show ∃ u, step (withSound s b d) = .next u ∧ AgreeButSound t u
  obtain ⟨hs, _⟩ := step_cases hstep
  obtain ⟨hpc, h⟩ | ⟨e, hpc, hd, h⟩ | ⟨i, hpc, hd, h⟩ := step_of_no_fault_cases hs
  · rw [h] at hstep
    cases hstep
    exact ⟨_, step_of_no_fetch (s := withSound s b d) hs hpc, rfl⟩
  · rw [h] at hstep
    cases hstep
    exact ⟨_, step_of_illegal (s := withSound s b d) hs hpc hd, rfl⟩
  · rw [step_of_decode (s := withSound s b d) hs hpc hd, exec_eq, executeFault_withSound]
    rw [h, exec_eq] at hstep
    cases hdue : executeFault i s <;> rw [hdue] at hstep <;> cases hstep
    · exact ⟨_, rfl, agreeButSound_resultOf i s b d⟩
    · exact ⟨_, rfl, rfl⟩

end Sys2Proof.Proofs

/-! SUPPORT. The ends of a run (spec/70_reset_and_hazards.md R375, spec/47_familyF_misc.md R257) and the host's
operations (spec/60_exceptions.md R320 to R333, spec/70_reset_and_hazards.md R350 to R354). -/

namespace Sys2Proof.Proofs

open Sys2Proof.Machine Sys2Proof.Safety

/-! ### A STEP that changes nothing -/

theorem hostRun_replicate_step {s : State} (hs : s.fault = none) (hstep : step s = .next s) (n : Nat) :
    hostRun (List.replicate n .step) s = s := by
  induction n with
  | zero => rfl
  | succ n ih => rw [List.replicate_succ, hostRun, hostOp, hostStep_of_next hstep hs, ih]

/-- The jump to `PC` is the word 1nnn with `nnn` = `PC` (R141). -/
theorem encode_jp_pc {p : Word} (hp : p.toNat < 0x1000) : encode (.jp (p.setWidth 12)) = 0x1000#16 ||| p := by
  apply BitVec.eq_of_toNat_eq
  rw [encode, Laws.packNNN_toNat, BitVec.toNat_setWidth, Nat.mod_eq_of_lt hp, BitVec.toNat_or]
  exact Nat.two_pow_add_eq_or_of_lt (i := 12) hp 1

theorem addressOf_setWidth {p : Word} (hp : p.toNat < 0x1000) : addressOf (p.setWidth 12) = p := by
  apply BitVec.eq_of_toNat_eq
  rw [toNat_addressOf, BitVec.toNat_setWidth, Nat.mod_eq_of_lt hp]

/-- Settles O51: the word decodes to the jump to `PC`, which leaves the state as it is. -/
theorem idleEndIsFinal : Obligations.IdleEndIsFinal := by
  rintro s n ⟨hs, hpc, hword⟩
  have hp : s.pc.toNat < 0x1000 := Nat.lt_of_le_of_lt hpc (by decide)
  have hdecode : decode s.fetchedWord = .ok (.jp (s.pc.setWidth 12)) := by
    rw [hword, ← encode_jp_pc hp, decode_encode]
  have hstep : step s = .next s := by
    rw [step_of_decode hs hpc hdecode, exec_jp, addressOf_setWidth hp]
    rfl
  exact ⟨hstep, hostRun_replicate_step hs hstep n⟩

/-! ### The key wait -/

theorem getElem_keysOf (k : Word) (j : Fin 16) : (keysOf k)[j.val]'j.isLt = k.getLsbD j.val :=
  Vector.getElem_ofFn j.isLt

theorem exists_getLsbD_of_ne_zero {k : Word} (h : k ≠ 0#16) : ∃ j : Fin 16, k.getLsbD j.val = true := by
  by_contra hnone
  rw [not_exists] at hnone
  refine h (BitVec.eq_of_getLsbD_eq fun j hj => ?_)
  rw [Bool.eq_false_of_not_eq_true (hnone ⟨j, hj⟩), BitVec.getLsbD_zero]

/-- Once the keys have a pressed one the wait is over: `PC` goes on (R256). -/
theorem step_waitKey_of_pressed {s : State} {x : Reg} (hs : s.fault = none) (hpc : s.pc.toNat ≤ 0xFFE)
    (hd : decode s.fetchedWord = .ok (.waitKey x)) {keys : Vector Bool 16}
    (hkey : ∃ k : Fin 16, keys[k.val]'k.isLt = true) :
    ∃ t, step { s with keys := keys } = .next t ∧ t.pc = s.pc + 2#16 :=
  ⟨resultOf (.waitKey x) { s with keys := keys },
    (step_of_decode (s := { s with keys := keys }) hs hpc hd).trans (exec_of_no_fault_due rfl),
    (pc_resultOf_waitKey x { s with keys := keys }).trans (if_pos hkey)⟩

/-- Settles O52: with no key the Fx0A answers the state itself; SETKEYS changes neither `PC` nor the word there. -/
theorem keyWaitIsRepeatedExecution : Obligations.KeyWaitIsRepeatedExecution := by
  rintro s n ⟨hs, hpc, hword, hnone⟩
  have hdecode := decodesAs_waitKey _ hword
  have hstep : step s = .next s := by rw [step_of_decode hs hpc hdecode, exec_waitKey_of_none hnone]
  refine ⟨hstep, hostRun_replicate_step hs hstep n, fun k hk => ?_⟩
  obtain ⟨j, hj⟩ := exists_getLsbD_of_ne_zero hk
  exact step_waitKey_of_pressed hs hpc hdecode ⟨j, (getElem_keysOf k j).trans hj⟩

/-! ### RESET -/

theorem fontByte_glyphZero (p : Config.Params) :
    (List.range 5).map (fontByte p) = [0xF0#8, 0x90#8, 0x90#8, 0x90#8, 0xF0#8] := rfl

theorem fontByte_glyphs (p : Config.Params) (j : Nat) (h : j < 75) : fontByte p (5 + j) = p.glyphs[j]'h := by
  rw [fontByte, if_neg (by omega), Nat.add_sub_cancel_left]
  simp [List.getD_eq_getElem?_getD, h]

theorem byteAt_hostReset (s : State) (a : Nat) : (hostReset s).byteAt a = initialByte s.params a := rfl

theorem reg_hostReset (s : State) (r : Reg) : (hostReset s).reg r = 0#8 := Vector.getElem_replicate ..

/-- Settles O53: field by field; memory lists nothing, so every byte is what R350 and R351 say. -/
theorem resetState : Obligations.ResetState :=
  ⟨rfl, fun s => ⟨rfl, reg_hostReset s, rfl, rfl, rfl, rfl, Grid.pixel_blank,
    fun _ => Vector.getElem_replicate .., rfl, rfl, fun a _ => byteAt_hostReset s a,
    fontByte_glyphZero s.params, fontByte_glyphs s.params⟩⟩

theorem pc_hostReset (s : State) : (hostReset s).pc = 0x200#16 := rfl

/-- Outside the font, memory is 0 after RESET (R351). -/
theorem initialByte_outside (p : Config.Params) {a : Nat} (h : 0x0A0 ≤ a) : initialByte p a = 0#8 :=
  if_neg fun hfont => Nat.not_lt.mpr h hfont.2

theorem fetchedWord_hostReset (s : State) : (hostReset s).fetchedWord = 0x0000#16 := by
  rw [State.fetchedWord, byteAt_hostReset, byteAt_hostReset, pc_hostReset,
    initialByte_outside _ (by decide), initialByte_outside _ (by decide)]
  rfl

/-- Settles O54: RESET leaves 0x0000 at 0x200, which no row of R110 accepts. -/
theorem stepBeforeLoadIsDecodeError : Obligations.StepBeforeLoadIsDecodeError := by
  intro s
  have hillegal : decode (hostReset s).fetchedWord = .error (.illegal 0x0000#16) := by
    rw [fetchedWord_hostReset]
    exact (legalWordsDecode 0x0000#16).2 (by decide)
  rw [step_of_illegal rfl (by rw [pc_hostReset]; decide) hillegal, fetchedWord_hostReset]
  rfl

/-! ### TICK, SETKEYS, the reads and CLEARDRAW -/

/-- A timer goes down by one and stays at 0 (R320). -/
theorem toNat_countDown (t : Byte) : (countDown t).toNat = t.toNat - 1 := by
  have := t.isLt
  unfold countDown
  split
  · rw [BitVec.toNat_ofNat]
    omega
  · omega

/-- Settles O56: each timer by its own count. -/
theorem tickCountsDown : Obligations.TickCountsDown := fun s =>
  ⟨hostTick s, rfl, toNat_countDown s.dt, toNat_countDown s.st, rfl⟩

/-- The display is read row by row (R333). -/
theorem getD_hostReadDisplay (s : State) {c r : Nat} (hc : c < 64) (hr : r < 32) :
    (hostReadDisplay s).getD (r * 64 + c) false = Grid.pixel s.disp c r := by
  have hindex : r * 64 + c < 2048 := by omega
  have hcolumn : (r * 64 + c) % 64 = c := by omega
  have hrow : (r * 64 + c) / 64 = r := by omega
  simp [hostReadDisplay, List.getD_eq_getElem?_getD, hindex, hcolumn, hrow]

theorem soundOn_iff (s : State) : s.soundOn = true ↔ s.st.toNat ≠ 0 := by
  rw [State.soundOn, bne_iff_ne, ne_eq, ← BitVec.toNat_inj]
  rfl

theorem rest_setKeys (s : State) (keys : Vector Bool 16) : { { s with keys := keys } with keys := s.keys } = s := rfl

/-- Settles O57: SETKEYS by the bits of its value; the reads answer the state itself. -/
theorem keysDisplayAndFlags : Obligations.KeysDisplayAndFlags := fun s k =>
  ⟨⟨hostSetKeys k s, rfl, getElem_keysOf k, rest_setKeys s (keysOf k)⟩,
    ⟨hostReadDisplay s, rfl, (List.length_map _).trans List.length_range, fun _ _ => getD_hostReadDisplay s⟩,
    ⟨s.soundOn, rfl, soundOn_iff s⟩, rfl⟩

end Sys2Proof.Proofs
